-- ==== Sys2Proof/Word.lean ====
section
/-! DEFINITION. The word types of HUFF (00_scope.md R7, R9) and tables indexed by a symbol (10_state.md R20). -/

namespace Sys2Proof

/-- A 32-bit register, window or command word (20_memory.md R70, 30_encoding.md R100). -/
abbrev Word := BitVec 32

/-- A symbol, SYMBOL_BITS = 8 (00_scope.md R7). -/
abbrev Symbol := BitVec 8

/-- A node index, IDX_BITS = 9 (00_scope.md R7). -/
abbrev NodeIx := BitVec 9

/-- A host byte address, ADDR_BITS = 14 (00_scope.md R7, 20_memory.md R70). -/
abbrev Addr := BitVec 14

/-- An internal table with one entry per symbol (10_state.md R20: `array[256]`). -/
abbrev SymTable (α : Type) := Vector α 256

/-- The place of a symbol in a table. -/
def symIx (sym : Symbol) : Fin 256 := sym.toFin

/-- `x[sym]` (00_scope.md R10). -/
def SymTable.at {α : Type} (t : SymTable α) (sym : Symbol) : α := t.get (symIx sym)

/-- `x[sym] <- v` (00_scope.md R10). -/
def SymTable.put {α : Type} (t : SymTable α) (sym : Symbol) (v : α) : SymTable α := t.set (symIx sym) v

/-- The table whose every entry is `v`. -/
def SymTable.all {α : Type} (v : α) : SymTable α := Vector.replicate 256 v

end Sys2Proof
end

