-- ==== Sys2Proof/Config.lean ====
section
/-! DEFINITION. What this hardware fixes: the parameters of 00_scope.md R7 and the constants of 10_state.md R37.
The one OPEN parameter, LATENCY, has no value here: it is the schedule of Machine/State.lean (log 1). -/

namespace Sys2Proof.Config

/-- NSYM: the alphabet size (R7). -/
def nsym : Nat := 256

/-- FREQ_MAX: the largest legal TOTAL, 2^32 − 1 (R7). -/
def freqMax : Nat := 0xFFFFFFFF

/-- NODE_CAP: the entries of node memory (R7). -/
def nodeCap : Nat := 511

/-- CODE_MAX: the longest code in bits (R7). -/
def codeMax : Nat := 255

/-- EOQ_DEPTH: the capacity of the encoder's output queue in bits (R7). -/
def eoqDepth : Nat := 512

/-- EOQ_POP: the most bits one read of EOQ_DATA pops (R7). -/
def eoqPop : Nat := 16

/-- SOQ_DEPTH: the capacity of the decoder's output queue in symbols (R7). -/
def soqDepth : Nat := 32

/-- DEC_KMAX: the most bits one DEC consumes (R7). -/
def decKMax : Nat := 32

/-- ID, a constant register (10_state.md R37). -/
def id : Word := 0x48554646#32

/-- PARAMS, a constant register (10_state.md R37). -/
def params : Word := 0x02002008#32

end Sys2Proof.Config
end

