-- ==== Sys2Proof/Syntax.lean ====
section
/-! DEFINITION. The ten commands of HUFF-CMD version 1, one constructor per row of the opcode map (30_encoding.md R105). -/

namespace Sys2Proof

/-- A command. Operands are those the command word carries (30_encoding.md R104); a count of SETF and the bits of DEC
come from ARG_L and are not part of the word. -/
inductive Instr where
  /-- NOP, OPC 0x00 (46_control.md R210). -/
  | nop
  /-- CLR, OPC 0x01 (46_control.md R212). -/
  | clr
  /-- COUNT sym, OPC 0x02 (41_frequency.md R140). -/
  | count (sym : Symbol)
  /-- SETF sym, OPC 0x03 (41_frequency.md R142). -/
  | setf (sym : Symbol)
  /-- BUILD, OPC 0x04 (42_tree_builder.md R150). -/
  | build
  /-- GEN, OPC 0x05 (43_code_generator.md R170). -/
  | gen
  /-- ENC sym, OPC 0x06 (44_encoder.md R180). -/
  | enc (sym : Symbol)
  /-- DEC k, OPC 0x07; the field K has 6 bits (30_encoding.md R103, 45_decoder.md R190). -/
  | dec (k : BitVec 6)
  /-- DEND, OPC 0x08 (45_decoder.md R194). -/
  | dend
  /-- DRST, OPC 0x09 (45_decoder.md R196). -/
  | drst
  deriving DecidableEq, Repr

end Sys2Proof
end

