-- ==== Sys2Proof/WellFormed.lean ====
section
/-! DEFINITION. Which commands an encoding stands for: the operand ranges of 30_encoding.md R102, R103 and R106 (c). -/

namespace Sys2Proof

/-- K is legal only for 1 ≤ K ≤ 32 (30_encoding.md R104, R106 (c)). -/
def legalK (k : BitVec 6) : Bool := decide (1 ≤ k.toNat) && decide (k.toNat ≤ Config.decKMax)

/-- Every operand is one its format admits: a SYM is any 8-bit value (R102), a K is 1..32 (R103). -/
def Instr.wellFormed (i : Instr) : Bool :=
  match i with
  | .nop => true
  | .clr => true
  | .count _ => true
  | .setf _ => true
  | .build => true
  | .gen => true
  | .enc _ => true
  | .dec k => legalK k
  | .dend => true
  | .drst => true

end Sys2Proof
end

