-- ==== Sys2Proof/Decode.lean ====
section
/-! DEFINITION. Decoding a command word (30_encoding.md R107), total on every 32-bit word, and the encoder
(30_encoding.md R101 to R105). -/

namespace Sys2Proof

/-- `w[31:24]`, the opcode (30_encoding.md R100). -/
def opcOf (w : Word) : BitVec 8 := w.extractLsb' 24 8

/-- `w[7:0]`, the SYM field of format S (30_encoding.md R102, R104). -/
def symOf (w : Word) : Symbol := w.extractLsb' 0 8

/-- `w[5:0]`, the K field of format K (30_encoding.md R103, R104). -/
def kOf (w : Word) : BitVec 6 := w.extractLsb' 0 6

/-- Format N: `w[23:0] = 0` (30_encoding.md R101, R106 (b)). -/
def reservedOkN (w : Word) : Bool := w.extractLsb' 0 24 == 0#24

/-- Format S: `w[23:8] = 0` (30_encoding.md R102, R106 (b)). -/
def reservedOkS (w : Word) : Bool := w.extractLsb' 8 16 == 0#16

/-- Format K: `w[23:6] = 0` (30_encoding.md R103, R106 (b)). -/
def reservedOkK (w : Word) : Bool := w.extractLsb' 6 18 == 0#18

/-- `Decode` (30_encoding.md R107); `none` is Illegal. -/
def decode (w : Word) : Option Instr :=
  match (opcOf w).toNat with
  | 0x00 => if reservedOkN w then some .nop else none
  | 0x01 => if reservedOkN w then some .clr else none
  | 0x02 => if reservedOkS w then some (.count (symOf w)) else none
  | 0x03 => if reservedOkS w then some (.setf (symOf w)) else none
  | 0x04 => if reservedOkN w then some .build else none
  | 0x05 => if reservedOkN w then some .gen else none
  | 0x06 => if reservedOkS w then some (.enc (symOf w)) else none
  | 0x07 => if reservedOkK w && legalK (kOf w) then some (.dec (kOf w)) else none
  | 0x08 => if reservedOkN w then some .dend else none
  | 0x09 => if reservedOkN w then some .drst else none
  | _ => none

/-- A word of format N (30_encoding.md R101). -/
def encodeN (opc : BitVec 8) : Word := opc ++ 0#24

/-- A word of format S (30_encoding.md R102). -/
def encodeS (opc : BitVec 8) (sym : Symbol) : Word := opc ++ (0#16 ++ sym)

/-- A word of format K (30_encoding.md R103). -/
def encodeK (opc : BitVec 8) (k : BitVec 6) : Word := opc ++ (0#18 ++ k)

/-- The word of a command by the opcode map (30_encoding.md R105). -/
def encode (i : Instr) : Word :=
  match i with
  | .nop => encodeN 0x00#8
  | .clr => encodeN 0x01#8
  | .count sym => encodeS 0x02#8 sym
  | .setf sym => encodeS 0x03#8 sym
  | .build => encodeN 0x04#8
  | .gen => encodeN 0x05#8
  | .enc sym => encodeS 0x06#8 sym
  | .dec k => encodeK 0x07#8 k
  | .dend => encodeN 0x08#8
  | .drst => encodeN 0x09#8

/-- A row of the opcode map: a word belongs to it when `(word & mask) = match` (30_encoding.md R105). -/
structure OpcodeRow where
  mnemonic : String
  pattern : Word
  mask : Word
  deriving DecidableEq, Repr

/-- Whether a word matches a row. -/
def OpcodeRow.matchesWord (r : OpcodeRow) (w : Word) : Bool := (w &&& r.mask) == r.pattern

/-- The opcode map as 30_encoding.md R105 prints it. The DEC row's further constraint 1 ≤ K ≤ 32 stands in `decode`. -/
def opcodeMap : List OpcodeRow :=
  [ ⟨"NOP", 0x00000000#32, 0xFFFFFFFF#32⟩,
    ⟨"CLR", 0x01000000#32, 0xFFFFFFFF#32⟩,
    ⟨"COUNT", 0x02000000#32, 0xFFFFFF00#32⟩,
    ⟨"SETF", 0x03000000#32, 0xFFFFFF00#32⟩,
    ⟨"BUILD", 0x04000000#32, 0xFFFFFFFF#32⟩,
    ⟨"GEN", 0x05000000#32, 0xFFFFFFFF#32⟩,
    ⟨"ENC", 0x06000000#32, 0xFFFFFF00#32⟩,
    ⟨"DEC", 0x07000000#32, 0xFFFFFFC0#32⟩,
    ⟨"DEND", 0x08000000#32, 0xFFFFFFFF#32⟩,
    ⟨"DRST", 0x09000000#32, 0xFFFFFFFF#32⟩ ]

/-- The mnemonic of a command as the opcode map spells it (30_encoding.md R105). -/
def Instr.mnemonic (i : Instr) : String :=
  match i with
  | .nop => "NOP"
  | .clr => "CLR"
  | .count _ => "COUNT"
  | .setf _ => "SETF"
  | .build => "BUILD"
  | .gen => "GEN"
  | .enc _ => "ENC"
  | .dec _ => "DEC"
  | .dend => "DEND"
  | .drst => "DRST"

/-- The command word held in the low `nbits` bits of `w`, higher bits 0. Every command is one 32-bit word
(30_encoding.md R100). -/
def tableWord (nbits w : Nat) : Word := BitVec.ofNat 32 (w % 2 ^ nbits)

/-- What the decoder reads from the instruction whose bits are `w`, numbered as spec/opcode_table.json numbers them. A
number that does not fit the 32 bits of a command is no command word. -/
def decodeTableWord (nbits w : Nat) : Option Instr :=
  if w % 2 ^ nbits < 2 ^ 32 then decode (tableWord nbits w) else none

end Sys2Proof
end

