-- ==== Sys2Proof/Machine/State.lean ====
section
/-! DEFINITION. The architectural state of HUFF (10_state.md R20) as plain data, the events the outside gives the
block (00_scope.md R8), the stop reasons of the interface, and the state after reset (10_state.md R45). -/

namespace Sys2Proof.Machine

/-- PHASE: 0 = COUNTING, 1 = BUILT, 2 = CODED; 3 is never held (10_state.md R26). -/
inductive Phase where
  | counting
  | built
  | coded
  deriving DecidableEq, Repr

/-- A tree node, a variant with exactly two cases (00_scope.md R11, 10_state.md R24). -/
inductive Node where
  | leaf (sym : Symbol) (freq : Word)
  | internal (freq : Word) (left right : NodeIx)
  deriving DecidableEq, Repr

/-- The errors a command can end with, codes 1 to 7 (60_exceptions.md R220). -/
inductive CmdError where
  /-- 1, raised by BUILD (R221). -/
  | invalidInput
  /-- 2, raised by ENC (R222). -/
  | unknownSymbol
  /-- 3, raised by DEND and DEC (R223). -/
  | malformedStream
  /-- 4, raised by an illegal command word (R224). -/
  | illegalCommand
  /-- 5, raised by a command outside its phases (R225). -/
  | sequence
  /-- 6, raised by COUNT and SETF (R226). -/
  | countOverflow
  /-- 7, raised by ENC and DEC (R227). -/
  | queueFull
  deriving DecidableEq, Repr

/-- The errors of a host transaction, codes 8 and 9 (60_exceptions.md R220). -/
inductive HostError where
  /-- 8, a CMD write while BUSY = 1 (R228). -/
  | busy
  /-- 9, a misaligned, sub-word or unmapped access (R229). -/
  | access
  deriving DecidableEq, Repr

/-- A host transaction: `MemRead(addr, n)` or `MemWrite(addr, n, v)` (20_memory.md R74, R75). -/
inductive Txn where
  | read (addr : Addr) (n : Nat)
  | write (addr : Addr) (n : Nat) (v : Word)
  deriving DecidableEq, Repr

/-- What the bus answers to a transaction: `rdata` of a read, and `resp_err` (20_memory.md R74 to R76; log 3). -/
inductive Response where
  | read (rdata : Word) (respErr : Bool)
  | write (respErr : Bool)
  deriving DecidableEq, Repr

/-- One step of the interleaving of 20_memory.md R85, or a reset cycle (70_reset_and_hazards.md R250). -/
inductive Event where
  /-- The host performs a transaction. -/
  | host (t : Txn)
  /-- The engine has its turn: it completes the command in flight, if there is one (40_command_model.md R124). -/
  | engine
  /-- A cycle with `rst` = 1, and the transaction the host attempts in it, if any. -/
  | rst (attempted : Option Txn)
  deriving DecidableEq, Repr

/-- The state of the machine: 10_state.md R20, line by line, and two fields of the model's own. -/
structure State where
  /-- FREQ (R21). -/
  freq : SymTable Word
  /-- TOTAL (R22). -/
  total : Word
  /-- NODE (R24). -/
  node : List Node
  /-- NNODE (R25). -/
  nnode : BitVec 9
  /-- NLEAF (R25). -/
  nleaf : BitVec 9
  /-- ROOT (R25). -/
  root : NodeIx
  /-- PHASE (R26). -/
  phase : Phase
  /-- CODE_LEN (R27). -/
  codeLen : SymTable (BitVec 8)
  /-- CODE (R27); `false` is the bit 0 and `true` the bit 1, element 0 first. -/
  code : SymTable (List Bool)
  /-- DEC_CUR (R28). -/
  decCur : NodeIx
  /-- EOQ, oldest bit first (R29). -/
  eoq : List Bool
  /-- SOQ, oldest symbol first (R30). -/
  soq : List Symbol
  /-- ARG (R31). -/
  arg : Word
  /-- RESULT (R32). -/
  result : Word
  /-- LAST_ERR (R35); `none` is 0 = OK. It never holds 8 or 9. -/
  lastErr : Option CmdError
  /-- ERR, the nine sticky bits (R36): bit c − 1 here is ERR[c], c = 1..9. -/
  err : BitVec 9
  /-- BUSY (R33). -/
  busy : Bool
  /-- CMD_L (R33). -/
  cmdL : Word
  /-- ARG_L (R33). -/
  argL : Word
  /-- The model's own: the events still to come, the next one first (log 1). -/
  schedule : List Event
  /-- The model's own: what the bus answered in the step just taken, if a transaction was performed in it (log 3). -/
  resp : Option Response
  deriving DecidableEq, Repr

/-- Reasons for a machine fault. -/
inductive Fault where
  /-- Raised by nothing: "None is a model fault, stuck state or refusal" (60_exceptions.md R233). The constructor only
  gives the interface's type an inhabitant; a stop would be safe. -/
  | noModelFault
  deriving DecidableEq, Repr

/-- Reasons for having no meaning. -/
inductive Refusal where
  /-- Raised only by an arm of `exec` whose instruction has no meaning yet; no arm does. Safe. -/
  | notModelled (mnemonic : String)
  deriving DecidableEq, Repr

/-- The state after reset (10_state.md R45). CMD_L and ARG_L are "unspecified" there: 0 is the model's value (log 2,
DESIGN CHOICE). No event is pending and the bus has answered nothing (log 1, log 3). -/
def State.reset : State where
  freq := SymTable.all 0
  total := 0
  node := []
  nnode := 0
  nleaf := 0
  root := 0
  phase := .counting
  codeLen := SymTable.all 0
  code := SymTable.all []
  decCur := 0
  eoq := []
  soq := []
  arg := 0
  result := 0
  lastErr := none
  err := 0
  busy := false
  cmdL := 0
  argL := 0
  schedule := []
  resp := none

end Sys2Proof.Machine
end

