-- ==== Sys2Proof/Machine/Flags.lean ====
section
/-! DEFINITION. The status and error registers of HUFF: error codes (60_exceptions.md R220), the sticky ERR bits
(10_state.md R36) and the STATUS word (10_state.md R35). HUFF has no other condition flags (10_state.md R43). -/

namespace Sys2Proof.Machine

/-- The value of PHASE (10_state.md R26). -/
def Phase.bits (p : Phase) : BitVec 2 :=
  match p with
  | .counting => 0
  | .built => 1
  | .coded => 2

/-- The code of a command error (60_exceptions.md R220). -/
def CmdError.code (e : CmdError) : Nat :=
  match e with
  | .invalidInput => 1
  | .unknownSymbol => 2
  | .malformedStream => 3
  | .illegalCommand => 4
  | .sequence => 5
  | .countOverflow => 6
  | .queueFull => 7

/-- The code of a host error (60_exceptions.md R220). -/
def HostError.code (e : HostError) : Nat :=
  match e with
  | .busy => 8
  | .access => 9

/-- ERR with the bit of code `c` set, 1 ≤ c ≤ 9; the others keep their values (10_state.md R36). -/
def setErrBit (err : BitVec 9) (c : Nat) : BitVec 9 := err ||| BitVec.ofNat 9 (2 ^ (c - 1))

/-- ERR as a word: bit c is the sticky bit of code c, bits [0] and [31:10] read 0 (10_state.md R36). -/
def errWord (err : BitVec 9) : Word := 0#22 ++ (err ++ 0#1)

/-- A write of `v` to ERR: every bit c, 1 ≤ c ≤ 9, with v[c] = 1 is cleared; v[0] and v[31:10] are ignored
(20_memory.md R75, R81). -/
def clearErrBits (err : BitVec 9) (v : Word) : BitVec 9 := err &&& ~~~(v.extractLsb' 1 9)

/-- LAST_ERR as its four bits (10_state.md R35). -/
def lastErrBits (e : Option CmdError) : BitVec 4 :=
  match e with
  | none => 0
  | some c => BitVec.ofNat 4 c.code

/-- DEC_AT_ROOT: 1 if DEC_CUR = ROOT (10_state.md R35). -/
def State.decAtRoot (s : State) : Bool := s.decCur == s.root

/-- SINGLETON: 1 if PHASE ≠ COUNTING and NLEAF = 1 (10_state.md R35). -/
def State.singleton (s : State) : Bool := s.phase != .counting && s.nleaf == 1#9

/-- STATUS (10_state.md R35): [0] BUSY, [2:1] PHASE, [3] DEC_AT_ROOT, [7:4] LAST_ERR, [8] SINGLETON, [31:9] 0. -/
def State.statusWord (s : State) : Word :=
  0#23 ++ (BitVec.ofBool s.singleton ++ (lastErrBits s.lastErr ++ (BitVec.ofBool s.decAtRoot ++
    (s.phase.bits ++ BitVec.ofBool s.busy))))

end Sys2Proof.Machine
end

