-- ==== Sys2Proof/Machine/Ops.lean ====
section
/-! DEFINITION. The operations every command and transaction shares: the tables, the two queues, the acceptance of a
command (40_command_model.md R121), phase permission (R125), and the recording of an outcome (R124, R126, R127), which is
all there is of taking an exception (60_exceptions.md R231). -/

namespace Sys2Proof.Machine

/-- The symbols 0 .. 255 in ascending order (42_tree_builder.md R151: `for s in 0 .. 255`). -/
def allSymbols : List Symbol := (List.range Config.nsym).map (BitVec.ofNat 8)

/-- The value of a bit list whose first element is bit 0 (20_memory.md R79, R83). -/
def bitsLE (bits : List Bool) : Nat :=
  match bits with
  | [] => 0
  | b :: rest => b.toNat + 2 * bitsLE rest

/-- The frequency of a node (10_state.md R24). -/
def Node.freq (n : Node) : Word :=
  match n with
  | .leaf _ f => f
  | .internal f _ _ => f

/-- `free(EOQ)` (00_scope.md R10, 44_encoder.md R180). -/
def State.eoqFree (s : State) : Nat := Config.eoqDepth - s.eoq.length

/-- `free(SOQ)` (00_scope.md R10, 45_decoder.md R190). -/
def State.soqFree (s : State) : Nat := Config.soqDepth - s.soq.length

/-- The count of bits one read of EOQ_DATA pops: `min(16, |EOQ|)` (20_memory.md R79). -/
def State.eoqPopCount (s : State) : Nat := min Config.eoqPop s.eoq.length

/-- The word a read of EOQ_DATA returns: the oldest bit in bit 0, the count in [20:16] (20_memory.md R79). -/
def State.eoqPopWord (s : State) : Word :=
  BitVec.ofNat 32 (bitsLE (s.eoq.take s.eoqPopCount)) ||| BitVec.ofNat 32 (s.eoqPopCount <<< 16)

/-- EOQ after that read (20_memory.md R79). -/
def State.eoqPopped (s : State) : State := { s with eoq := s.eoq.drop s.eoqPopCount }

/-- The word a read of SOQ_DATA returns: VALID in [8], the oldest symbol in [7:0]; 0 when empty (20_memory.md R80). -/
def State.soqPopWord (s : State) : Word :=
  match s.soq with
  | [] => 0
  | sym :: _ => 0#23 ++ (1#1 ++ sym)

/-- SOQ after that read (20_memory.md R80). -/
def State.soqPopped (s : State) : State := { s with soq := s.soq.drop 1 }

/-- The latching of a command at its acceptance (40_command_model.md R121, R122). Acceptance does not decode. -/
def State.accept (s : State) (v : Word) : State := { s with cmdL := v, argL := s.arg, busy := true }

/-- The record of a host error: its ERR bit and nothing else (60_exceptions.md R228, R229). -/
def State.recordHostError (s : State) (e : HostError) : State := { s with err := setErrBit s.err e.code }

/-- `Issue(v)` (40_command_model.md R121): while BUSY = 1 the write is dropped and sets ERR[8]. -/
def State.issue (s : State) (v : Word) : State := if s.busy then s.recordHostError .busy else s.accept v

/-- What `Exec(c)` returns: the new state with a result, or a failure (40_command_model.md R124). -/
inductive ExecResult where
  | ok (s : State) (res : Option Word)
  | fail (e : CmdError)
  deriving DecidableEq, Repr

/-- Completion with an error, the shared form of every command error: LAST_ERR and ERR[e], and BUSY back to 0; nothing
else changes (40_command_model.md R124, R127; 60_exceptions.md R231). -/
def State.completeFail (s : State) (e : CmdError) : State :=
  { s with lastErr := some e, err := setErrBit s.err e.code, busy := false }

/-- Completion with success: LAST_ERR = 0, RESULT unless there is none, BUSY back to 0 (40_command_model.md R124, R126). -/
def State.completeOk (s : State) (res : Option Word) : State :=
  { s with lastErr := none, result := res.getD s.result, busy := false }

/-- The `case outcome of` of `Complete()` (40_command_model.md R124). -/
def State.recordOutcome (s : State) (r : ExecResult) : State :=
  match r with
  | .ok s' res => s'.completeOk res
  | .fail e => s.completeFail e

/-- `Allowed(c)`, the phases in which a command may run (40_command_model.md R125). -/
def allowed (i : Instr) (p : Phase) : Bool :=
  match i with
  | .nop => true
  | .clr => true
  | .count _ => p == .counting
  | .setf _ => p == .counting
  | .build => p == .counting
  | .gen => p == .built || p == .coded
  | .enc _ => p == .coded
  | .dec _ => p == .built || p == .coded
  | .dend => p == .built || p == .coded
  | .drst => p == .built || p == .coded

/-- `Complete()` for a decoded command: the phase check, then the command's body (40_command_model.md R124, R128). -/
def complete (permitted : Bool) (body : State → ExecResult) (s : State) : Host.Outcome State Fault Refusal :=
  .next (s.recordOutcome (if permitted then body s else .fail .sequence))

/-- `Complete()` for an illegal command word (40_command_model.md R124, 60_exceptions.md R224). -/
def completeIllegal (s : State) : Host.Outcome State Fault Refusal := .next (s.completeFail .illegalCommand)

/-- A cycle with `rst` = 1: every piece of state at its value after reset; the command in flight is aborted
(70_reset_and_hazards.md R250, R251). The events still to come are the outside's and stay. -/
def State.resetCycle (s : State) : State := { State.reset with schedule := s.schedule }

end Sys2Proof.Machine
end

