-- ==== Sys2Proof/Machine/Operands.lean ====
section
/-! DEFINITION. The operands a command takes from outside its word: ARG_L as a count and as a batch of bits
(30_encoding.md R104). The operands in the word, SYM and K, are the decoder's (Decode.lean). -/

namespace Sys2Proof.Machine

/-- The count of SETF: ARG_L, 32 bits, unsigned (30_encoding.md R104). -/
def State.countOperand (s : State) : Word := s.argL

/-- The bits of DEC: `ARG_L[K−1:0]`, ARG_L[0] first; higher bits are ignored (30_encoding.md R104, 45_decoder.md R190). -/
def State.bitsOperand (s : State) (k : BitVec 6) : List Bool := (List.range k.toNat).map s.argL.getLsbD

end Sys2Proof.Machine
end

