-- ==== Sys2Proof/Machine/CodeGenerator.lean ====
section
/-! DEFINITION. The code generator command GEN (43_code_generator.md): the walk of the tree into the code table. -/

namespace Sys2Proof.Machine

/-- `Walk(i, path)` (43_code_generator.md R170), as the list of (symbol, code) entries it writes, in the order it visits
the leaves. A path of a tree passes each node at most once, so `fuel` = the number of nodes is enough (R173). -/
def walk (nodes : List Node) (fuel : Nat) (i : NodeIx) (path : List Bool) : List (Symbol × List Bool) :=
  match fuel with
  | 0 => []
  | k + 1 =>
    match nodes[i.toNat]? with
    | none => []
    | some (.leaf sym _) => [(sym, path)]
    | some (.internal _ l r) => walk nodes k l (path ++ [false]) ++ walk nodes k r (path ++ [true])

/-- The entries GEN writes: "0" for the sole symbol of a singleton tree (43_code_generator.md R171), else the walk from
the root (R170). -/
def codeEntries (nodes : List Node) (root : NodeIx) : List (Symbol × List Bool) :=
  match nodes[root.toNat]? with
  | some (.leaf sym _) => [(sym, [false])]
  | _ => walk nodes nodes.length root []

/-- `CODE[s] <- path` for every entry in order, over the emptied table (43_code_generator.md R170). -/
def codeTable (entries : List (Symbol × List Bool)) : SymTable (List Bool) :=
  entries.foldl (fun t e => t.put e.1 e.2) (SymTable.all [])

/-- `CODE_LEN[s] <- len(path)` for every entry in order, over the zeroed table (43_code_generator.md R170). -/
def codeLenTable (entries : List (Symbol × List Bool)) : SymTable (BitVec 8) :=
  entries.foldl (fun t e => t.put e.1 (BitVec.ofNat 8 e.2.length)) (SymTable.all 0)

/-- `max over s of CODE_LEN[s]` (43_code_generator.md R170). -/
def maxCodeLen (lens : SymTable (BitVec 8)) : Nat :=
  allSymbols.foldl (fun m sym => max m (lens.at sym).toNat) 0

/-- The body of GEN (43_code_generator.md R170). -/
def genBody (s : State) : ExecResult :=
  let entries := codeEntries s.node s.root
  let lens := codeLenTable entries
  .ok { s with code := codeTable entries, codeLen := lens, phase := .coded } (some (BitVec.ofNat 32 (maxCodeLen lens)))

/-- GEN (43_code_generator.md R170). -/
def execGen (s : State) : Host.Outcome State Fault Refusal := complete (allowed .gen s.phase) genBody s

end Sys2Proof.Machine
end

