-- ==== Sys2Proof/Machine/Control.lean ====
section
/-! DEFINITION. The control commands NOP and CLR (46_control.md). -/

namespace Sys2Proof.Machine

/-- The body of NOP (46_control.md R210). -/
def nopBody (s : State) : ExecResult := .ok s none

/-- NOP (46_control.md R210). -/
def execNop (s : State) : Host.Outcome State Fault Refusal := complete (allowed .nop s.phase) nopBody s

/-- The state CLR leaves: every table, queue and the phase as after reset; ARG and ERR keep their values
(46_control.md R212, R213). -/
def State.cleared (s : State) : State :=
  { s with
    freq := SymTable.all 0
    codeLen := SymTable.all 0
    code := SymTable.all []
    total := 0
    node := []
    nnode := 0
    nleaf := 0
    root := 0
    decCur := 0
    eoq := []
    soq := []
    phase := .counting }

/-- The body of CLR (46_control.md R212). -/
def clrBody (s : State) : ExecResult := .ok s.cleared (some 0)

/-- CLR (46_control.md R212). -/
def execClr (s : State) : Host.Outcome State Fault Refusal := complete (allowed .clr s.phase) clrBody s

end Sys2Proof.Machine
end

