-- ==== Sys2Proof/Machine/Decoder.lean ====
section
/-! DEFINITION. The decoder commands DEC, DEND and DRST (45_decoder.md): the finite state machine over the tree. -/

namespace Sys2Proof.Machine

/-- What one bit step of the decoder tells: nothing, an emitted symbol, or a failure (45_decoder.md R191). -/
inductive DecEvent where
  | none
  | emit (sym : Symbol)
  | fail
  deriving DecidableEq, Repr

/-- `Step(cur, b)` (45_decoder.md R191, R192). The last arm is met by no cursor that 10_state.md R42 allows (log 5). -/
def decStep (nodes : List Node) (root cur : NodeIx) (b : Bool) : NodeIx × DecEvent :=
  match nodes[root.toNat]? with
  | some (.leaf sym _) => if b then (cur, .fail) else (root, .emit sym)
  | _ =>
    match nodes[cur.toNat]? with
    | some (.internal _ l r) =>
      let nxt := if b then r else l
      match nodes[nxt.toNat]? with
      | some (.leaf sym _) => (root, .emit sym)
      | _ => (nxt, .none)
    | _ => (cur, .none)

/-- The loop of DEC over its bits, from a cursor: the last cursor and the symbols emitted in order, or `none` when a step
fails (45_decoder.md R190). -/
def decFeed (nodes : List Node) (root cur : NodeIx) (bits : List Bool) : Option (NodeIx × List Symbol) :=
  match bits with
  | [] => some (cur, [])
  | b :: rest =>
    match decStep nodes root cur b with
    | (_, .fail) => none
    | (cur', .none) => decFeed nodes root cur' rest
    | (cur', .emit sym) =>
      match decFeed nodes root cur' rest with
      | none => none
      | some (last, out) => some (last, sym :: out)

/-- The body of DEC (45_decoder.md R190). -/
def decBody (k : BitVec 6) (s : State) : ExecResult :=
  if s.soqFree < k.toNat then .fail .queueFull
  else
    match decFeed s.node s.root s.decCur (s.bitsOperand k) with
    | none => .fail .malformedStream
    | some (cur, out) => .ok { s with decCur := cur, soq := s.soq ++ out } (some (BitVec.ofNat 32 out.length))

/-- DEC (45_decoder.md R190). A K outside 1..32 is an illegal command, checked first (30_encoding.md R106 (c),
40_command_model.md R128); the decoder gives no such command. -/
def execDec (k : BitVec 6) (s : State) : Host.Outcome State Fault Refusal :=
  if legalK k then complete (allowed (.dec k) s.phase) (decBody k) s else completeIllegal s

/-- The body of DEND (45_decoder.md R194). -/
def dendBody (s : State) : ExecResult := if s.decCur ≠ s.root then .fail .malformedStream else .ok s (some 0)

/-- DEND (45_decoder.md R194). -/
def execDend (s : State) : Host.Outcome State Fault Refusal := complete (allowed .dend s.phase) dendBody s

/-- The body of DRST (45_decoder.md R196). -/
def drstBody (s : State) : ExecResult := .ok { s with decCur := s.root } (some 0)

/-- DRST (45_decoder.md R196). -/
def execDrst (s : State) : Host.Outcome State Fault Refusal := complete (allowed .drst s.phase) drstBody s

end Sys2Proof.Machine
end

