-- ==== Sys2Proof/Machine/Encoder.lean ====
section
/-! DEFINITION. The encoder command ENC (44_encoder.md). -/

namespace Sys2Proof.Machine

/-- The bits ENC pushes: `CODE[sym][j]` for j in 0 .. L−1, first code bit first (44_encoder.md R180). -/
def State.codeBits (s : State) (sym : Symbol) : List Bool := (s.code.at sym).take (s.codeLen.at sym).toNat

/-- The body of ENC (44_encoder.md R180). -/
def encBody (sym : Symbol) (s : State) : ExecResult :=
  let len := s.codeLen.at sym
  if len = 0#8 then .fail .unknownSymbol
  else if s.eoqFree < len.toNat then .fail .queueFull
  else .ok { s with eoq := s.eoq ++ s.codeBits sym } (some (len.zeroExtend 32))

/-- ENC (44_encoder.md R180). -/
def execEnc (sym : Symbol) (s : State) : Host.Outcome State Fault Refusal :=
  complete (allowed (.enc sym) s.phase) (encBody sym) s

end Sys2Proof.Machine
end

