-- ==== Sys2Proof/Machine/Frequency.lean ====
section
/-! DEFINITION. The frequency counter commands COUNT and SETF (41_frequency.md). -/

namespace Sys2Proof.Machine

/-- The body of COUNT (41_frequency.md R140). -/
def countBody (sym : Symbol) (s : State) : ExecResult :=
  if s.total.toNat = Config.freqMax then .fail .countOverflow
  else
    let c := s.freq.at sym + 1
    .ok { s with freq := s.freq.put sym c, total := s.total + 1 } (some c)

/-- COUNT (41_frequency.md R140). -/
def execCount (sym : Symbol) (s : State) : Host.Outcome State Fault Refusal :=
  complete (allowed (.count sym) s.phase) (countBody sym) s

/-- The total SETF would leave, in unbounded arithmetic: `TOTAL − FREQ[sym] + v` (41_frequency.md R142). FREQ[sym] ≤ TOTAL
(10_state.md R23), so the sum is taken before the difference. -/
def State.setfTotal (s : State) (sym : Symbol) : Nat :=
  s.total.toNat + s.countOperand.toNat - (s.freq.at sym).toNat

/-- The body of SETF (41_frequency.md R142). -/
def setfBody (sym : Symbol) (s : State) : ExecResult :=
  if Config.freqMax < s.setfTotal sym then .fail .countOverflow
  else
    let t := BitVec.ofNat 32 (s.setfTotal sym)
    .ok { s with freq := s.freq.put sym s.countOperand, total := t } (some t)

/-- SETF (41_frequency.md R142). -/
def execSetf (sym : Symbol) (s : State) : Host.Outcome State Fault Refusal :=
  complete (allowed (.setf sym) s.phase) (setfBody sym) s

end Sys2Proof.Machine
end

