-- ==== Sys2Proof/Machine/TreeBuilder.lean ====
section
/-! DEFINITION. The tree builder command BUILD (42_tree_builder.md): leaves, greedy merging with its tie-break. -/

namespace Sys2Proof.Machine

/-- `CreateLeaves()`: one leaf per symbol of nonzero count, in ascending symbol order (42_tree_builder.md R151). -/
def createLeaves (freq : SymTable Word) : List Node :=
  (allSymbols.filter (fun sym => freq.at sym != 0#32)).map (fun sym => .leaf sym (freq.at sym))

/-- `N[i].freq`. -/
def freqAt (nodes : List Node) (i : Nat) : Word :=
  match nodes[i]? with
  | some n => n.freq
  | none => 0

/-- The priority order: the key (N[i].freq, i), compared lexicographically (42_tree_builder.md R154). -/
def keyLt (nodes : List Node) (i j : Nat) : Bool :=
  decide ((freqAt nodes i).toNat < (freqAt nodes j).toNat) ||
    (decide ((freqAt nodes i).toNat = (freqAt nodes j).toNat) && decide (i < j))

/-- The index of smallest key among `best` and a list of indices. -/
def leastKey (nodes : List Node) (best : Nat) (rest : List Nat) : Nat :=
  match rest with
  | [] => best
  | i :: more => leastKey nodes (if keyLt nodes i best then i else best) more

/-- `ExtractMin(PQ, N)`: the index of smallest key, and the collection without it (42_tree_builder.md R154). -/
def extractMin (nodes : List Node) (pq : List Nat) : Option (Nat × List Nat) :=
  match pq with
  | [] => none
  | i :: more =>
    let m := leastKey nodes i more
    some (m, (i :: more).erase m)

/-- The node a merge of `a` (extracted first, the left child) and `b` (the right child) creates
(42_tree_builder.md R152, R155). The sum is at most TOTAL and cannot overflow (41_frequency.md R144; log 6). -/
def mergedNode (nodes : List Node) (a b : Nat) : Node :=
  .internal (freqAt nodes a + freqAt nodes b) (BitVec.ofNat 9 a) (BitVec.ofNat 9 b)

/-- The loop of `Merge` (42_tree_builder.md R152) run at most `rounds` times: `nodes` is N and `pq` is PQ. -/
def mergeLoop (rounds : Nat) (nodes : List Node) (pq : List Nat) : List Node × List Nat :=
  match rounds with
  | 0 => (nodes, pq)
  | k + 1 =>
    match extractMin nodes pq with
    | none => (nodes, pq)
    | some (a, pq1) =>
      match extractMin nodes pq1 with
      | none => (nodes, pq)
      | some (b, pq2) => mergeLoop k (nodes ++ [mergedNode nodes a b]) (pq2 ++ [nodes.length])

/-- `Merge(L, n)`: exactly n − 1 rounds from PQ = {0, .., n − 1} (42_tree_builder.md R152); the node list and the sole
element left. -/
def mergeTree (leaves : List Node) : List Node × Nat :=
  let r := mergeLoop (leaves.length - 1) leaves (List.range leaves.length)
  (r.1, r.2.headD 0)

/-- The state a successful BUILD leaves (42_tree_builder.md R150). -/
def State.withTree (s : State) (leaves : List Node) : State :=
  let r := mergeTree leaves
  { s with
    node := r.1
    nnode := BitVec.ofNat 9 (2 * leaves.length - 1)
    nleaf := BitVec.ofNat 9 leaves.length
    root := BitVec.ofNat 9 r.2
    decCur := BitVec.ofNat 9 r.2
    phase := .built }

/-- The body of BUILD (42_tree_builder.md R150). -/
def buildBody (s : State) : ExecResult :=
  let leaves := createLeaves s.freq
  if leaves.length = 0 then .fail .invalidInput
  else
    let t := s.withTree leaves
    .ok t (some (t.root.zeroExtend 32))

/-- BUILD (42_tree_builder.md R150). -/
def execBuild (s : State) : Host.Outcome State Fault Refusal := complete (allowed .build s.phase) buildBody s

end Sys2Proof.Machine
end

