-- ==== Sys2Proof/Machine/Dispatch.lean ====
section
/-! DEFINITION. The completion of a decoded command (40_command_model.md R124), one arm per constructor. -/

namespace Sys2Proof.Machine

def exec (i : Instr) (s : State) : Host.Outcome State Fault Refusal :=
  match i with
  | .nop => Sys2Proof.Machine.execNop s
  | .clr => Sys2Proof.Machine.execClr s
  | .count sym => Sys2Proof.Machine.execCount sym s
  | .setf sym => Sys2Proof.Machine.execSetf sym s
  | .build => Sys2Proof.Machine.execBuild s
  | .gen => Sys2Proof.Machine.execGen s
  | .enc sym => Sys2Proof.Machine.execEnc sym s
  | .dec k => Sys2Proof.Machine.execDec k s
  | .dend => Sys2Proof.Machine.execDend s
  | .drst => Sys2Proof.Machine.execDrst s

end Sys2Proof.Machine
end

