-- ==== Sys2Proof/Machine/HostBus.lean ====
section
/-! DEFINITION. The host's address space (20_memory.md R70 to R73) and its transactions (R74 to R82). -/

namespace Sys2Proof.Machine

/-- What a mapped word address names (20_memory.md R71, R72). -/
inductive Target where
  | id
  | cmd
  | arg
  | status
  | err
  | result
  | total
  | nleaf
  | nnode
  | root
  | decCur
  | eoqCount
  | eoqData
  | soqCount
  | soqData
  | params
  | freqWin (sym : Symbol)
  | codeLenWin (sym : Symbol)
  | nodeWin0 (i : NodeIx)
  | nodeWin1 (i : NodeIx)
  | codeWin (sym : Symbol) (w : BitVec 3)
  deriving DecidableEq, Repr

/-- The register at an offset below 0x040 (20_memory.md R71). -/
def registerAt (offset : Nat) : Option Target :=
  match offset with
  | 0x000 => some .id
  | 0x004 => some .cmd
  | 0x008 => some .arg
  | 0x00C => some .status
  | 0x010 => some .err
  | 0x014 => some .result
  | 0x018 => some .total
  | 0x01C => some .nleaf
  | 0x020 => some .nnode
  | 0x024 => some .root
  | 0x028 => some .decCur
  | 0x02C => some .eoqCount
  | 0x030 => some .eoqData
  | 0x034 => some .soqCount
  | 0x038 => some .soqData
  | 0x03C => some .params
  | _ => none

/-- The target of a word-aligned address; `none` where it is unmapped (20_memory.md R71 to R73). -/
def wordTarget (a : Nat) : Option Target :=
  if a < 0x0400 then registerAt a
  else if a < 0x0800 then some (.freqWin (BitVec.ofNat 8 ((a - 0x400) / 4)))
  else if a < 0x0C00 then some (.codeLenWin (BitVec.ofNat 8 ((a - 0x800) / 4)))
  else if a < 0x1000 then none
  else if a < 0x2000 then
    let i := BitVec.ofNat 9 ((a - 0x1000) / 8)
    some (if (a - 0x1000) % 8 = 0 then .nodeWin0 i else .nodeWin1 i)
  else some (.codeWin (BitVec.ofNat 8 ((a - 0x2000) / 32)) (BitVec.ofNat 3 ((a - 0x2000) % 32 / 4)))

/-- The target of a legal access: 4 bytes, `addr[1:0] = 0`, mapped; `none` for an illegal one (20_memory.md R76). -/
def accessTarget (addr : Addr) (n : Nat) : Option Target :=
  if n = 4 ∧ addr.toNat % 4 = 0 then wordTarget addr.toNat else none

/-- NODE_WIN word 0 of node i (10_state.md R34): [7:0] SYM, [16:8] RIGHT, [25:17] LEFT, [30] LEAF, [31] VALID. -/
def State.nodeWord0 (s : State) (i : NodeIx) : Word :=
  if i < s.nnode then
    match s.node[i.toNat]? with
    | some (.leaf sym _) => 1#1 ++ (1#1 ++ (0#4 ++ (0#9 ++ (0#9 ++ sym))))
    | some (.internal _ l r) => 1#1 ++ (0#1 ++ (0#4 ++ (l ++ (r ++ 0#8))))
    | none => 0
  else 0

/-- NODE_WIN word 1 of node i: FREQ (10_state.md R34). -/
def State.nodeWord1 (s : State) (i : NodeIx) : Word :=
  if i < s.nnode then
    match s.node[i.toNat]? with
    | some n => n.freq
    | none => 0
  else 0

/-- The CODE_WIN word w of a symbol: code bits 32w .. 32w+31 below CODE_LEN, bit k of the word first = bit 0
(10_state.md R38). -/
def State.codeWord (s : State) (sym : Symbol) (w : BitVec 3) : Word :=
  BitVec.ofNat 32 (bitsLE ((((s.code.at sym).take (s.codeLen.at sym).toNat).drop (32 * w.toNat)).take 32))

/-- The word a read of a target returns (20_memory.md R71, R72, R74; 10_state.md R34 to R39). -/
def State.readWord (s : State) (t : Target) : Word :=
  match t with
  | .id => Config.id
  | .cmd => 0
  | .arg => s.arg
  | .status => s.statusWord
  | .err => errWord s.err
  | .result => s.result
  | .total => s.total
  | .nleaf => s.nleaf.zeroExtend 32
  | .nnode => s.nnode.zeroExtend 32
  | .root => s.root.zeroExtend 32
  | .decCur => s.decCur.zeroExtend 32
  | .eoqCount => BitVec.ofNat 32 s.eoq.length
  | .eoqData => s.eoqPopWord
  | .soqCount => BitVec.ofNat 32 s.soq.length
  | .soqData => s.soqPopWord
  | .params => Config.params
  | .freqWin sym => s.freq.at sym
  | .codeLenWin sym => (s.codeLen.at sym).zeroExtend 32
  | .nodeWin0 i => s.nodeWord0 i
  | .nodeWin1 i => s.nodeWord1 i
  | .codeWin sym w => s.codeWord sym w

/-- What a read of a target changes: only EOQ_DATA and SOQ_DATA reads change state (20_memory.md R74, R79, R80). -/
def State.afterRead (s : State) (t : Target) : State :=
  match t with
  | .eoqData => s.eoqPopped
  | .soqData => s.soqPopped
  | _ => s

/-- What a write of `v` to a target changes (20_memory.md R75): CMD issues (R78), ARG takes the value (R82), ERR clears
bits (R81), every other mapped address ignores it (R77). -/
def State.afterWrite (s : State) (t : Target) (v : Word) : State :=
  match t with
  | .cmd => s.issue v
  | .arg => { s with arg := v }
  | .err => { s with err := clearErrBits s.err v }
  | _ => s

/-- The answer of the bus in this step (20_memory.md R74 to R76; log 3). -/
def State.respond (s : State) (r : Option Response) : State := { s with resp := r }

/-- `MemRead(addr, n)` (20_memory.md R74, R76). -/
def memRead (addr : Addr) (n : Nat) (s : State) : State :=
  match accessTarget addr n with
  | none => (s.recordHostError .access).respond (some (.read 0 true))
  | some t => (s.afterRead t).respond (some (.read (s.readWord t) false))

/-- `MemWrite(addr, n, v)` (20_memory.md R75, R76). -/
def memWrite (addr : Addr) (n : Nat) (v : Word) (s : State) : State :=
  match accessTarget addr n with
  | none => (s.recordHostError .access).respond (some (.write true))
  | some t => (s.afterWrite t v).respond (some (.write false))

/-- A host transaction (00_scope.md R8). -/
def transact (t : Txn) (s : State) : State :=
  match t with
  | .read addr n => memRead addr n s
  | .write addr n v => memWrite addr n v s

end Sys2Proof.Machine
end

