-- ==== Sys2Proof/Machine/Engine.lean ====
section
/-! DEFINITION. The steps of the interleaving of 20_memory.md R85: a host transaction, a completion, a reset cycle; and
the placing of a command word. -/

namespace Sys2Proof.Machine

/-- The state a step works on: the event just taken is gone, and the bus has not answered yet (log 1, log 3). -/
def State.taken (s : State) (rest : List Event) : State := { s with schedule := rest, resp := none }

/-- The state in which `w` is the command in flight and the engine is next: `w` is accepted as by a CMD write while
BUSY = 0 (40_command_model.md R121), whatever was in flight before (log 8). -/
def State.placed (s : State) (w : Word) : State := { s.accept w with schedule := .engine :: s.schedule }

/-- The engine's turn: `Complete()` if a command is in flight, else nothing (40_command_model.md R124,
60_exceptions.md R241). -/
def engineTurn (s : State) : Host.Outcome State Fault Refusal :=
  if s.busy then
    match decode s.cmdL with
    | some i => exec i s
    | none => completeIllegal s
  else .next s

/-- One event. A transaction attempted in a cycle with `rst` = 1 is not performed (70_reset_and_hazards.md R250). -/
def takeEvent (e : Event) (s : State) : Host.Outcome State Fault Refusal :=
  match e with
  | .host t => .next (transact t s)
  | .engine => engineTurn s
  | .rst _ => .next s.resetCycle

end Sys2Proof.Machine
end

