-- ==== Sys2Proof/Machine/Step.lean ====
section
/-! DEFINITION. One step of HUFF: one atomic step of the interleaving of 20_memory.md R85, or a reset cycle (R250). -/

namespace Sys2Proof.Machine

/-- One step: the first pending event; with none pending the engine has its turn (weak fairness, 40_command_model.md R123,
70_reset_and_hazards.md R264; log 1). -/
def step (s : State) : Host.Outcome State Fault Refusal :=
  match s.schedule with
  | [] => engineTurn (s.taken [])
  | e :: rest => takeEvent e (s.taken rest)

/-- The state whose very next step completes the command word `w` (log 8). -/
def State.withFetchWord (s : State) (nbits w : Nat) : State := s.placed (tableWord nbits w)

end Sys2Proof.Machine
end

