-- ==== Sys2Proof/Machine/Assembler.lean ====
section
/-! DEFINITION. The text side of HUFF: the command syntax of 30_encoding.md R108 and the host lines and pseudo-commands of
R109 and R110, as events of the schedule. It fixes nothing of the block itself (92_eei_decisions.md D27). -/

namespace Sys2Proof.Machine

/-- The byte offset of a target (20_memory.md R71, R72), `offset(reg)` of 30_encoding.md R109. -/
def Target.offset (t : Target) : Addr :=
  match t with
  | .id => 0x000
  | .cmd => 0x004
  | .arg => 0x008
  | .status => 0x00C
  | .err => 0x010
  | .result => 0x014
  | .total => 0x018
  | .nleaf => 0x01C
  | .nnode => 0x020
  | .root => 0x024
  | .decCur => 0x028
  | .eoqCount => 0x02C
  | .eoqData => 0x030
  | .soqCount => 0x034
  | .soqData => 0x038
  | .params => 0x03C
  | .freqWin sym => BitVec.ofNat 14 (0x400 + 4 * sym.toNat)
  | .codeLenWin sym => BitVec.ofNat 14 (0x800 + 4 * sym.toNat)
  | .nodeWin0 i => BitVec.ofNat 14 (0x1000 + 8 * i.toNat)
  | .nodeWin1 i => BitVec.ofNat 14 (0x1004 + 8 * i.toNat)
  | .codeWin sym w => BitVec.ofNat 14 (0x2000 + 32 * sym.toNat + 4 * w.toNat)

/-- The value of a digit below `base`, of either case (30_encoding.md R108). -/
def digitOf (base : Nat) (c : Char) : Option Nat :=
  let n := c.toNat
  let v := if 0x30 ≤ n ∧ n ≤ 0x39 then n - 0x30
    else if 0x61 ≤ n ∧ n ≤ 0x66 then n - 0x61 + 10
    else if 0x41 ≤ n ∧ n ≤ 0x46 then n - 0x41 + 10
    else base
  if v < base then some v else none

/-- A number from its digits, most significant first, onto the value read so far. -/
def digitsOf (base acc : Nat) (cs : List Char) : Option Nat :=
  match cs with
  | [] => some acc
  | c :: rest =>
    match digitOf base c with
    | none => none
    | some d => digitsOf base (acc * base + d) rest

/-- A decimal number of at least one digit. -/
def decimalOf (cs : List Char) : Option Nat := if cs.isEmpty then none else digitsOf 10 0 cs

/-- A number: `0x61` or `97` (30_encoding.md R108). -/
def numberOf (cs : List Char) : Option Nat :=
  match cs with
  | '0' :: 'x' :: rest => if rest.isEmpty then none else digitsOf 16 0 rest
  | _ => decimalOf cs

/-- A SYM operand: a number up to 255, or a quoted ASCII character (30_encoding.md R108; log 9). -/
def symOperandOf (cs : List Char) : Option Symbol :=
  match cs with
  | ['\'', c, '\''] => if c.toNat < 128 then some (BitVec.ofNat 8 c.toNat) else none
  | _ =>
    match numberOf cs with
    | none => none
    | some n => if n ≤ 255 then some (BitVec.ofNat 8 n) else none

/-- A K operand: a decimal number from 1 to 32 (30_encoding.md R108). -/
def kOperandOf (cs : List Char) : Option (BitVec 6) :=
  match decimalOf cs with
  | none => none
  | some n => if 1 ≤ n ∧ n ≤ 32 then some (BitVec.ofNat 6 n) else none

/-- A letter as its capital: mnemonics are case-insensitive (30_encoding.md R108). -/
def capitalOf (c : Char) : Char := if 0x61 ≤ c.toNat ∧ c.toNat ≤ 0x7A then Char.ofNat (c.toNat - 0x20) else c

/-- A line without the spaces around it. -/
def trimmed (cs : List Char) : List Char := ((cs.dropWhile (· == ' ')).reverse.dropWhile (· == ' ')).reverse

/-- A command line `MNEMONIC [operand]` (30_encoding.md R108); an operand out of range is rejected. -/
def assembleLine (line : List Char) : Option Instr :=
  let cs := trimmed line
  let name := (cs.takeWhile (· != ' ')).map capitalOf
  let operand := trimmed (cs.dropWhile (· != ' '))
  let plain (i : Instr) : Option Instr := if operand.isEmpty then some i else none
  match name with
  | ['N', 'O', 'P'] => plain .nop
  | ['C', 'L', 'R'] => plain .clr
  | ['C', 'O', 'U', 'N', 'T'] => (symOperandOf operand).map .count
  | ['S', 'E', 'T', 'F'] => (symOperandOf operand).map .setf
  | ['B', 'U', 'I', 'L', 'D'] => plain .build
  | ['G', 'E', 'N'] => plain .gen
  | ['E', 'N', 'C'] => (symOperandOf operand).map .enc
  | ['D', 'E', 'C'] => (kOperandOf operand).map .dec
  | ['D', 'E', 'N', 'D'] => plain .dend
  | ['D', 'R', 'S', 'T'] => plain .drst
  | _ => none

/-- The word the assembler emits for a line (30_encoding.md R108). -/
def assemble (line : List Char) : Option Word := (assembleLine line).map encode

/-- `RD reg` (30_encoding.md R109). -/
def readReg (t : Target) : Event := .host (.read t.offset 4)

/-- `WR reg, value` (30_encoding.md R109). -/
def writeReg (t : Target) (v : Word) : Event := .host (.write t.offset 4 v)

/-- `POLL` (30_encoding.md R109) as one of its interleavings with the engine: `early` reads of STATUS before the completion,
the completion, and the read that sees BUSY = 0 (20_memory.md R85; log 1). -/
def pollEvents (early : Nat) : List Event := List.replicate early (readReg .status) ++ [.engine, readReg .status]

/-- `ISSUE c` (30_encoding.md R110). -/
def issueEvents (early : Nat) (i : Instr) : List Event := writeReg .cmd (encode i) :: pollEvents early

/-- `SETF sym, v` (30_encoding.md R110). -/
def setfEvents (early : Nat) (sym : Symbol) (v : Word) : List Event := writeReg .arg v :: issueEvents early (.setf sym)

/-- `DEC k, bits` (30_encoding.md R110). -/
def decEvents (early : Nat) (k : BitVec 6) (bits : Word) : List Event := writeReg .arg bits :: issueEvents early (.dec k)

/-- `COUNTS "str"` (30_encoding.md R110). DESIGN CHOICE: every command of the string sees the same number of `early` polls,
where 40_command_model.md R123 leaves the latency free per command (log 9). -/
def countsEvents (early : Nat) (str : List Symbol) : List Event := str.flatMap (fun sym => issueEvents early (.count sym))

/-- `ENCS "str"` (30_encoding.md R110). DESIGN CHOICE: every command of the string sees the same number of `early` polls,
where 40_command_model.md R123 leaves the latency free per command (log 9). -/
def encsEvents (early : Nat) (str : List Symbol) : List Event := str.flatMap (fun sym => issueEvents early (.enc sym))

/-- `DRAIN_EOQ` with `reads` reads, the last of which returns a count of 0 (30_encoding.md R110). -/
def drainEoqEvents (reads : Nat) : List Event := List.replicate reads (readReg .eoqData)

/-- `DRAIN_SOQ` with `reads` reads, the last of which returns VALID = 0 (30_encoding.md R110). -/
def drainSoqEvents (reads : Nat) : List Event := List.replicate reads (readReg .soqData)

/-- `CHECK`: `RD STATUS`; the command succeeded iff bits [7:4] are 0 (30_encoding.md R110). -/
def checkEvents : List Event := [readReg .status]

/-- Whether the STATUS word a CHECK read says success (30_encoding.md R110). -/
def checkPassed (status : Word) : Bool := status.extractLsb' 4 4 == 0#4

end Sys2Proof.Machine
end

