-- ==== Sys2Proof/Safety.lean ====
section
/-! DEFINITION. What the claims speak of: the invariants of the tree, the code table and the cursor (10_state.md R22, R25,
R26, R27, R29, R30, R40, R41, R42), paths of the tree, and the part of the state a host can see. -/

namespace Sys2Proof.Machine

/-- The sum of all counts (10_state.md R22: Σ FREQ[s]). -/
def freqSum (freq : SymTable Word) : Nat := (allSymbols.map (fun sym => (freq.at sym).toNat)).sum

/-- The number of symbols of nonzero count (10_state.md R40 (a)). -/
def distinctCount (freq : SymTable Word) : Nat := (allSymbols.filter (fun sym => freq.at sym != 0#32)).length

/-- The children a node names. -/
def Node.children (n : Node) : List Nat :=
  match n with
  | .leaf _ _ => []
  | .internal _ l r => [l.toNat, r.toNat]

/-- Every place of the node list that names a child, in order. -/
def childSlots (nodes : List Node) : List Nat := nodes.flatMap Node.children

/-- The node a path of branches leads to, 0 for left and 1 for right (10_state.md R27, R41 (b)). -/
def descend (nodes : List Node) (i : NodeIx) (path : List Bool) : Option NodeIx :=
  match path with
  | [] => some i
  | b :: rest =>
    match nodes[i.toNat]? with
    | some (.internal _ l r) => descend nodes (if b then r else l) rest
    | _ => none

/-- The symbol of the leaf a path of branches from the root leads to. -/
def leafOnPath (nodes : List Node) (root : NodeIx) (path : List Bool) : Option Symbol :=
  match descend nodes root path with
  | none => none
  | some i =>
    match nodes[i.toNat]? with
    | some (.leaf sym _) => some sym
    | _ => none

/-- The tree invariant of BUILT and CODED (10_state.md R25, R40). -/
structure TreeOk (s : State) : Prop where
  /-- R40 (a): NLEAF is the number of symbols of nonzero count. -/
  nleaf_eq : s.nleaf.toNat = distinctCount s.freq
  /-- R25: NLEAF is 1..256. -/
  nleaf_pos : 1 ≤ s.nleaf.toNat
  /-- R40 (a), R25: NNODE = 2·NLEAF − 1. -/
  nnode_eq : s.nnode.toNat + 1 = 2 * s.nleaf.toNat
  /-- R24: NODE is a list of NNODE nodes. -/
  length_eq : s.node.length = s.nnode.toNat
  /-- R40 (b): the leaves, of the symbols of nonzero count in ascending order, with their counts. -/
  leaves : s.node.take s.nleaf.toNat =
    (allSymbols.filter (fun sym => s.freq.at sym != 0#32)).map (fun sym => .leaf sym (s.freq.at sym))
  /-- R40 (b), (c): the other nodes are internal, with children below them and the sum of their frequencies. -/
  internals : ∀ i < s.nnode.toNat, s.nleaf.toNat ≤ i → ∃ f l r, s.node[i]? = some (.internal f l r) ∧
    l.toNat < i ∧ r.toNat < i ∧ f.toNat = (freqAt s.node l.toNat).toNat + (freqAt s.node r.toNat).toNat
  /-- R40 (d): every index but ROOT is named as a child exactly once, ROOT never. -/
  child_once : ∀ i < s.nnode.toNat, (childSlots s.node).count i = if i = s.root.toNat then 0 else 1
  /-- R25: ROOT = NNODE − 1. -/
  root_eq : s.root.toNat + 1 = s.nnode.toNat
  /-- R40 (e): the root's frequency is TOTAL. -/
  root_freq : freqAt s.node s.root.toNat = s.total

/-- The code table invariant of CODED (10_state.md R41). -/
structure CodeOk (s : State) : Prop where
  /-- R41 (a). -/
  coded_iff : ∀ sym, 1 ≤ (s.codeLen.at sym).toNat ↔ s.freq.at sym ≠ 0#32
  /-- R41 (b): with two or more leaves the codes are the root-to-leaf paths. -/
  paths : 2 ≤ s.nleaf.toNat → ∀ sym, s.freq.at sym ≠ 0#32 → leafOnPath s.node s.root (s.code.at sym) = some sym
  /-- R41 (c): with one leaf the one code is "0". -/
  sole : s.nleaf.toNat = 1 → ∀ sym, s.freq.at sym ≠ 0#32 → s.code.at sym = [false]
  /-- R41 (d). -/
  bound : ∀ sym, (s.codeLen.at sym).toNat ≤ max 1 (s.nleaf.toNat - 1)

/-- The invariant of every state a run reaches. -/
structure Inv (s : State) : Prop where
  /-- R22: TOTAL is the sum of the counts. -/
  total_eq : s.total.toNat = freqSum s.freq
  /-- R24, R25, R42: in COUNTING the tree is empty and its registers are 0. -/
  empty : s.phase = .counting → s.node = [] ∧ s.nnode = 0 ∧ s.nleaf = 0 ∧ s.root = 0 ∧ s.decCur = 0
  /-- R40. -/
  tree : s.phase ≠ .counting → TreeOk s
  /-- R27: outside CODED no symbol has a code. -/
  uncoded : s.phase ≠ .coded → ∀ sym, s.codeLen.at sym = 0#8
  /-- R27: CODE[s] is a list of CODE_LEN[s] bits. -/
  code_length : ∀ sym, (s.code.at sym).length = (s.codeLen.at sym).toNat
  /-- R41. -/
  codes : s.phase = .coded → CodeOk s
  /-- R42: DEC_CUR is ROOT or the index of an internal node. -/
  cursor : s.decCur = s.root ∨ ∃ f l r, s.node[s.decCur.toNat]? = some (.internal f l r)
  /-- R29: EOQ holds at most 512 bits. -/
  eoq_le : s.eoq.length ≤ 512
  /-- R30: SOQ holds at most 32 symbols. -/
  soq_le : s.soq.length ≤ 32

/-- An index still in the collection of `Merge` when node `i` is created: it exists and no node before `i` names it as a
child (42_tree_builder.md R152). -/
def Unmerged (nodes : List Node) (i j : Nat) : Prop := j < i ∧ j ∉ childSlots (nodes.take i)

/-- The lexicographic order of the keys (N[i].freq, i) (42_tree_builder.md R154). -/
def KeyBelow (nodes : List Node) (i j : Nat) : Prop :=
  (freqAt nodes i).toNat < (freqAt nodes j).toNat ∨ ((freqAt nodes i).toNat = (freqAt nodes j).toNat ∧ i < j)

/-- A state without the two latches, which no host read shows (10_state.md R33). -/
def State.unlatched (s : State) : State := { s with cmdL := 0, argL := 0 }

/-- Two states a host cannot tell apart: equal but for the latches, and the latches too while a command is in flight
(10_state.md R33). -/
def SameToHost (s t : State) : Prop :=
  s.unlatched = t.unlatched ∧ (s.busy = true → s.cmdL = t.cmdL ∧ s.argL = t.argL)

end Sys2Proof.Machine
end

