-- ==== Sys2Proof/Certificates/Slice0/Obligations.lean ====
section
/-! DEFINITION. The statements about HUFF for the provers; each says which rule of spec/ it formalises. -/

open Sys2Proof
open Sys2Proof.Machine

/-! ## Reset -/

/-- 10_state.md R45: the values after reset, and the register values a host then reads. CMD_L and ARG_L, which R45 leaves
unspecified, are not mentioned. -/
def Obligations.ResetStateHoldsTheGivenValues : Prop :=
  (∀ sym, State.reset.freq.at sym = 0#32) ∧ State.reset.total = 0 ∧ State.reset.node = [] ∧ State.reset.nnode = 0 ∧
  State.reset.nleaf = 0 ∧ State.reset.root = 0 ∧ State.reset.phase = .counting ∧ (∀ sym, State.reset.codeLen.at sym = 0#8) ∧
  (∀ sym, State.reset.code.at sym = []) ∧ State.reset.decCur = 0 ∧ State.reset.eoq = [] ∧ State.reset.soq = [] ∧
  State.reset.arg = 0 ∧ State.reset.result = 0 ∧ State.reset.lastErr = none ∧ State.reset.err = 0 ∧
  State.reset.busy = false ∧ State.reset.readWord .status = 0x00000008#32 ∧ State.reset.readWord .err = 0 ∧
  State.reset.readWord .result = 0 ∧ State.reset.readWord .eoqCount = 0 ∧ State.reset.readWord .soqCount = 0 ∧
  State.reset.readWord .id = 0x48554646#32 ∧ State.reset.readWord .params = 0x02002008#32

/-- 70_reset_and_hazards.md R250, R251: a reset cycle sets every piece of state to its value after reset, whatever was in
flight and whatever transaction the host attempts in it. The latches, unspecified after reset, are left out by
`unlatched` (log 2). That the events still to come stay (log 1) and that the bus has answered nothing (log 3) is the model's
choice. -/
def Obligations.ResetCycleRestoresTheResetState : Prop :=
  ∀ (s : State) (attempted : Option Txn) (rest : List Event), s.schedule = .rst attempted :: rest →
    ∃ t, step s = .next t ∧ t.unlatched = State.unlatched { State.reset with schedule := rest }

/-! ## Encoding -/

/-- 30_encoding.md R105, R107: words written out from the opcode map and the examples of R107. -/
def Obligations.SampleWordsDecode : Prop :=
  decode 0x00000000#32 = some .nop ∧ decode 0x01000000#32 = some .clr ∧ decode 0x02000061#32 = some (.count 0x61#8) ∧
  decode 0x03000072#32 = some (.setf 0x72#8) ∧ decode 0x04000000#32 = some .build ∧ decode 0x05000000#32 = some .gen ∧
  decode 0x060000FF#32 = some (.enc 0xFF#8) ∧ decode 0x07000020#32 = some (.dec 32#6) ∧
  decode 0x08000000#32 = some .dend ∧ decode 0x09000000#32 = some .drst ∧ decode 0x02000161#32 = none ∧
  decode 0x07000000#32 = none ∧ decode 0x07000021#32 = none ∧ decode 0x0A000000#32 = none

/-- Decoding an encoded well-formed command gives it back, with every operand (30_encoding.md R101 to R107). -/
def Obligations.DecodeOfEncodeIsTheCommand : Prop :=
  ∀ i : Instr, i.wellFormed = true → decode (encode i) = some i

/-- A word that decodes is the encoding of a well-formed command, so each word has one meaning (30_encoding.md R101 to
R107). -/
def Obligations.DecodedWordIsItsEncoding : Prop :=
  ∀ (w : Word) (i : Instr), decode w = some i → i.wellFormed = true ∧ encode i = w

/-- 30_encoding.md R106: which words are illegal, and that an illegal word in flight completes with ILLEGAL_COMMAND
(code 4: LAST_ERR and ERR[4]) and has no other effect than BUSY going back to 0. -/
def Obligations.IllegalWordsFailAtCompletion : Prop :=
  (∀ w : Word, decode w = none ↔
    (0x0A ≤ w.toNat / 2 ^ 24 ∨
      ((w.toNat / 2 ^ 24 = 0x00 ∨ w.toNat / 2 ^ 24 = 0x01 ∨ w.toNat / 2 ^ 24 = 0x04 ∨ w.toNat / 2 ^ 24 = 0x05 ∨
        w.toNat / 2 ^ 24 = 0x08 ∨ w.toNat / 2 ^ 24 = 0x09) ∧ w.toNat % 2 ^ 24 ≠ 0) ∨
      ((w.toNat / 2 ^ 24 = 0x02 ∨ w.toNat / 2 ^ 24 = 0x03 ∨ w.toNat / 2 ^ 24 = 0x06) ∧ w.toNat % 2 ^ 24 / 2 ^ 8 ≠ 0) ∨
      (w.toNat / 2 ^ 24 = 0x07 ∧
        (w.toNat % 2 ^ 24 / 2 ^ 6 ≠ 0 ∨ w.toNat % 2 ^ 6 = 0 ∨ 33 ≤ w.toNat % 2 ^ 6)))) ∧
  (∀ (s : State) (w : Word) (rest : List Event), s.busy = false → s.schedule = .host (.write 0x004 4 w) :: .engine :: rest →
    decode w = none →
    ∃ t, step s = .next t ∧ t.busy = true ∧
      step t = .next { s with
        schedule := rest, resp := none, cmdL := w, argL := s.arg
        lastErr := some .illegalCommand, err := s.err ||| 0b000001000#9, busy := false })

/-- A word that decodes matches exactly the row of its own command in the opcode map (30_encoding.md R105). -/
def Obligations.DecodedWordMatchesOneRow : Prop :=
  ∀ (w : Word) (i : Instr), decode w = some i →
    (opcodeMap.filter (fun r => r.matchesWord w)).map OpcodeRow.mnemonic = [i.mnemonic]

/-! ## The step, acceptance and completion -/

/-- 40_command_model.md R124: at its turn the engine completes the command in flight, as `exec` of the command its latched
word decodes to; the model's step also takes the engine's event off the schedule and clears the bus answer (log 1,
log 3). -/
def Obligations.EngineTurnRunsTheDecodedCommand : Prop :=
  ∀ (s : State) (rest : List Event) (i : Instr),
    (s.schedule = .engine :: rest ∨ (s.schedule = [] ∧ rest = [])) → s.busy = true → decode s.cmdL = some i →
    step s = exec i { s with schedule := rest, resp := none }

/-- A placed word runs at the very next step (the host's interface; log 8). -/
def Obligations.PlacedWordRunsNext : Prop :=
  ∀ (s : State) (w : Nat) (i : Instr), decodeTableWord 32 w = some i →
    step (s.withFetchWord 32 w) =
      exec i { s with cmdL := BitVec.ofNat 32 w, argL := s.arg, busy := true, resp := none }

/-- 40_command_model.md R121: a CMD write latches the word and ARG and sets BUSY; while BUSY = 1 it is dropped and only
ERR[8] is set. -/
def Obligations.CmdWriteIsAcceptedOrDropped : Prop :=
  ∀ (s : State) (v : Word) (rest : List Event), s.schedule = .host (.write 0x004 4 v) :: rest →
    (s.busy = false → step s = .next { s with
      schedule := rest, resp := some (.write false), cmdL := v, argL := s.arg, busy := true }) ∧
    (s.busy = true → step s = .next { s with
      schedule := rest, resp := some (.write false), err := s.err ||| 0b010000000#9 })

/-- 60_exceptions.md R241: with BUSY = 0 the engine has no enabled step, and all state survives its turn unchanged. -/
def Obligations.IdleEngineChangesNothing : Prop :=
  ∀ (s : State) (rest : List Event), (s.schedule = .engine :: rest ∨ (s.schedule = [] ∧ rest = [])) → s.busy = false →
    step s = .next { s with schedule := rest, resp := none }

/-- 60_exceptions.md R233: every command word, in every phase, in every state, and every host transaction has exactly one
outcome, which is a next state: no fault, no refusal. -/
def Obligations.EveryStepAnswersANextState : Prop :=
  ∀ s : State, ∃ t, step s = .next t

/-- Every run of the schedule ends with nothing in flight: one step more than there are events leaves BUSY = 0 and no event
(the model's rendering of weak fairness, 40_command_model.md R123 and 70_reset_and_hazards.md R264; log 1). -/
def Obligations.RunEndsWithNothingInFlight : Prop :=
  ∀ s : State, ∃ t, Host.Core.run Sys2Proof.core (s.schedule.length + 1) s = .next t ∧ t.busy = false ∧ t.schedule = []

/-- ISSUE of 30_encoding.md R110 completes its command with the same outcome however many reads of STATUS come before the
completion, and its last read sees BUSY = 0 (20_memory.md R85, R86; 70_reset_and_hazards.md R264; log 1). -/
def Obligations.IssueAndPollIsLatencyIndependent : Prop :=
  ∀ (s : State) (i : Instr) (early : Nat) (rest : List Event), i.wellFormed = true → s.busy = false →
    s.schedule = issueEvents early i ++ rest →
    ∃ t, exec i { s with schedule := rest, resp := none, cmdL := encode i, argL := s.arg, busy := true } = .next t ∧
      Host.Core.run Sys2Proof.core (early + 3) s = .next { t with resp := some (.read t.statusWord false) } ∧
      t.statusWord.getLsbD 0 = false

/-- 20_memory.md R89: a command in flight cannot be altered by any later host transaction: the latches and BUSY stay. -/
def Obligations.HostCannotAlterTheCommandInFlight : Prop :=
  ∀ (s : State) (x : Txn) (rest : List Event), s.schedule = .host x :: rest → s.busy = true →
    ∃ t, step s = .next t ∧ t.cmdL = s.cmdL ∧ t.argL = s.argL ∧ t.busy = true

/-- 40_command_model.md R122: a command reads its operands only from its word and ARG_L; a host write to ARG while it runs
changes ARG and nothing of what the command does. -/
def Obligations.ArgWriteDoesNotAffectTheRunningCommand : Prop :=
  ∀ (i : Instr) (s : State) (v : Word),
    ∃ t, exec i s = .next t ∧ exec i { s with arg := v } = .next { t with arg := v }

/-- 10_state.md R33: the latches cannot be read by the host, and while BUSY = 0 nothing depends on their value: two states
that differ only in them are not told apart by a step. -/
def Obligations.LatchesAreUnobservableWhileIdle : Prop :=
  ∀ s s' : State, SameToHost s s' →
    ∃ t t', step s = .next t ∧ step s' = .next t' ∧ SameToHost t t' ∧ t.resp = t'.resp

/-! ## Outcomes, phases and who writes what -/

/-- 40_command_model.md R127: a command that ends with an error e sets LAST_ERR to e, ERR[e] to 1 and BUSY to 0; nothing else
changes. -/
def Obligations.FailedCommandChangesOnlyTheErrorRecord : Prop :=
  ∀ (i : Instr) (s t : State) (e : CmdError), exec i s = .next t → t.lastErr = some e →
    t = { s with lastErr := some e, err := s.err ||| BitVec.ofNat 9 (2 ^ (e.code - 1)), busy := false }

/-- 40_command_model.md R126: on success ERR is not changed, and NOP leaves RESULT alone. -/
def Obligations.SuccessNeverClearsErr : Prop :=
  ∀ (i : Instr) (s t : State), exec i s = .next t → t.lastErr = none →
    t.err = s.err ∧ (i = .nop → t.result = s.result)

/-- 60_exceptions.md R220 and 40_command_model.md R127: after a completion LAST_ERR is 0 to 7, the failing commands' codes
are those of the table, and no command touches ERR[8] or ERR[9]. -/
def Obligations.CommandErrorsAreCodesOneToSeven : Prop :=
  CmdError.invalidInput.code = 1 ∧ CmdError.unknownSymbol.code = 2 ∧ CmdError.malformedStream.code = 3 ∧
  CmdError.illegalCommand.code = 4 ∧ CmdError.sequence.code = 5 ∧ CmdError.countOverflow.code = 6 ∧
  CmdError.queueFull.code = 7 ∧
  (∀ (i : Instr) (s t : State), exec i s = .next t →
    t.err.getLsbD 7 = s.err.getLsbD 7 ∧ t.err.getLsbD 8 = s.err.getLsbD 8 ∧
    (∀ e, t.lastErr = some e → 1 ≤ e.code ∧ e.code ≤ 7 ∧ t.err.getLsbD (e.code - 1) = true))

/-- 40_command_model.md R125, 60_exceptions.md R225: a decodable command outside its phases fails with SEQUENCE (code 5), and
nothing else changes. -/
def Obligations.OutsideItsPhasesACommandFailsWithSequence : Prop :=
  ∀ (i : Instr) (s : State), i.wellFormed = true →
    ((s.phase = .counting ∧ (i = .gen ∨ (∃ sym, i = .enc sym) ∨ (∃ k, i = .dec k) ∨ i = .dend ∨ i = .drst)) ∨
      (s.phase = .built ∧ ((∃ sym, i = .count sym) ∨ (∃ sym, i = .setf sym) ∨ i = .build ∨ ∃ sym, i = .enc sym)) ∨
      (s.phase = .coded ∧ ((∃ sym, i = .count sym) ∨ (∃ sym, i = .setf sym) ∨ i = .build))) →
    exec i s = .next { s with lastErr := some .sequence, err := s.err ||| 0b000010000#9, busy := false }

/-- 10_state.md R26: PHASE changes only by BUILD (COUNTING to BUILT), GEN (to CODED) and CLR (to COUNTING), and a failed
command never changes it. -/
def Obligations.PhaseTransitions : Prop :=
  ∀ (i : Instr) (s t : State), exec i s = .next t →
    (t.lastErr = none →
      (i = .build → s.phase = .counting ∧ t.phase = .built) ∧
      (i = .gen → (s.phase = .built ∨ s.phase = .coded) ∧ t.phase = .coded) ∧
      (i = .clr → t.phase = .counting) ∧
      (i ≠ .build → i ≠ .gen → i ≠ .clr → t.phase = s.phase)) ∧
    (t.lastErr ≠ none → t.phase = s.phase)

/-- Which commands write which state: FREQ and TOTAL only COUNT, SETF and CLR (10_state.md R21); the tree and its registers
only BUILD and CLR (R24, R25); PHASE only BUILD, GEN and CLR (R26); the code table only GEN and CLR (R27); DEC_CUR only
BUILD, DEC, DRST and CLR (R28); EOQ only ENC and CLR, SOQ only DEC and CLR (R29, R30, 92_eei_decisions.md D33); ARG no
command (R31); RESULT neither a failed command nor NOP (R32); ERR no successful command, and a failed one only the bit of its
code (R36); BUSY ends 0 (R33, 40_command_model.md R124). That the latches keep their values is the model's choice (log 2), as
are the schedule (log 1) and the bus answer (log 3), which no command touches. -/
def Obligations.EachTableHasItsOwnWriters : Prop :=
  ∀ (i : Instr) (s t : State), exec i s = .next t →
    ((∀ sym, i ≠ .count sym ∧ i ≠ .setf sym) → i ≠ .clr → t.freq = s.freq ∧ t.total = s.total) ∧
    (i ≠ .build → i ≠ .clr → t.node = s.node ∧ t.nnode = s.nnode ∧ t.nleaf = s.nleaf ∧ t.root = s.root) ∧
    (i ≠ .gen → i ≠ .clr → t.code = s.code ∧ t.codeLen = s.codeLen) ∧
    (i ≠ .build → (∀ k, i ≠ .dec k) → i ≠ .drst → i ≠ .clr → t.decCur = s.decCur) ∧
    ((∀ sym, i ≠ .enc sym) → i ≠ .clr → t.eoq = s.eoq) ∧
    ((∀ k, i ≠ .dec k) → i ≠ .clr → t.soq = s.soq) ∧
    (i ≠ .build → i ≠ .gen → i ≠ .clr → t.phase = s.phase) ∧
    (t.lastErr ≠ none ∨ i = .nop → t.result = s.result) ∧
    (t.lastErr = none → t.err = s.err) ∧
    (∀ e, t.lastErr = some e → ∀ c, c < 9 → t.err.getLsbD c = (s.err.getLsbD c || decide (c + 1 = e.code))) ∧
    t.arg = s.arg ∧ t.cmdL = s.cmdL ∧ t.argL = s.argL ∧ t.schedule = s.schedule ∧ t.resp = s.resp ∧ t.busy = false

/-! ## Control commands -/

/-- 46_control.md R210: NOP completes in every phase; LAST_ERR = 0, BUSY = 0, nothing else changes. -/
def Obligations.NopOnlyRecordsSuccess : Prop :=
  ∀ s : State, exec .nop s = .next { s with lastErr := none, busy := false }

/-- 46_control.md R212, R213: after CLR the state equals the reset state in everything except ARG and ERR (and the command's
latches, log 2, and the model's own two fields, log 1 and log 3). -/
def Obligations.ClrLeavesTheResetStateButArgAndErr : Prop :=
  ∀ s : State, exec .clr s = .next { State.reset with
    arg := s.arg, err := s.err, cmdL := s.cmdL, argL := s.argL, schedule := s.schedule, resp := s.resp }

/-! ## Frequency counter -/

/-- 41_frequency.md R140: COUNT adds one to FREQ[sym] and to TOTAL and answers the new count, unless TOTAL is 0xFFFFFFFF
(COUNT_OVERFLOW, code 6). No other table entry changes. -/
def Obligations.CountAddsOneOccurrence : Prop :=
  ∀ (sym : Symbol) (s : State), s.phase = .counting →
    (s.total ≠ 0xFFFFFFFF#32 → ∃ t, exec (.count sym) s = .next t ∧
      t.freq.at sym = s.freq.at sym + 1 ∧ (∀ x, x ≠ sym → t.freq.at x = s.freq.at x) ∧
      t = { s with freq := t.freq, total := s.total + 1, result := s.freq.at sym + 1, lastErr := none, busy := false }) ∧
    (s.total = 0xFFFFFFFF#32 → exec (.count sym) s = .next { s with
      lastErr := some .countOverflow, err := s.err ||| 0b000100000#9, busy := false })

/-- 41_frequency.md R142: SETF replaces FREQ[sym] by ARG_L; the new total TOTAL − FREQ[sym] + ARG_L, in natural numbers, is
stored and answered unless it exceeds 0xFFFFFFFF (COUNT_OVERFLOW). The premise FREQ[sym] ≤ TOTAL is 10_state.md R23, which
the invariant gives. -/
def Obligations.SetfReplacesOneCount : Prop :=
  ∀ (sym : Symbol) (s : State) (total' : Nat), s.phase = .counting → (s.freq.at sym).toNat ≤ s.total.toNat →
    total' + (s.freq.at sym).toNat = s.total.toNat + s.argL.toNat →
    (total' ≤ 0xFFFFFFFF → ∃ t, exec (.setf sym) s = .next t ∧
      t.freq.at sym = s.argL ∧ (∀ x, x ≠ sym → t.freq.at x = s.freq.at x) ∧ t.total.toNat = total' ∧
      t = { s with freq := t.freq, total := t.total, result := t.total, lastErr := none, busy := false }) ∧
    (0xFFFFFFFF < total' → exec (.setf sym) s = .next { s with
      lastErr := some .countOverflow, err := s.err ||| 0b000100000#9, busy := false })

/-- 10_state.md R23: under the invariant no single count exceeds TOTAL. -/
def Obligations.CountsAreAtMostTotal : Prop :=
  ∀ (s : State) (sym : Symbol), Inv s → (s.freq.at sym).toNat ≤ s.total.toNat

/-! ## Tree builder -/

/-- 42_tree_builder.md R150, R153, R156: in COUNTING with n ≥ 1 symbols of nonzero count, BUILD leaves NNODE = 2n − 1,
NLEAF = n, ROOT = DEC_CUR = RESULT = 2n − 2 (0 when n = 1), PHASE = BUILT, and changes nothing else but NODE and the
record of success. -/
def Obligations.BuildLeavesTheTreeRegisters : Prop :=
  ∀ s : State, s.phase = .counting → 1 ≤ distinctCount s.freq →
    ∃ t, exec .build s = .next t ∧ t.node.length = 2 * distinctCount s.freq - 1 ∧
      t = { s with
        node := t.node
        nnode := BitVec.ofNat 9 (2 * distinctCount s.freq - 1)
        nleaf := BitVec.ofNat 9 (distinctCount s.freq)
        root := BitVec.ofNat 9 (2 * distinctCount s.freq - 2)
        decCur := BitVec.ofNat 9 (2 * distinctCount s.freq - 2)
        phase := .built
        result := BitVec.ofNat 32 (2 * distinctCount s.freq - 2)
        lastErr := none
        busy := false }

/-- 42_tree_builder.md R157, 60_exceptions.md R221: with every count 0, BUILD fails with INVALID_INPUT (code 1) and nothing
else changes. -/
def Obligations.BuildOfNoSymbolFails : Prop :=
  ∀ s : State, s.phase = .counting → (∀ sym, s.freq.at sym = 0#32) →
    exec .build s = .next { s with lastErr := some .invalidInput, err := s.err ||| 0b000000001#9, busy := false }

/-- 42_tree_builder.md R151, R152, R154, R155: the first n nodes are the leaves of the counted symbols in ascending symbol
order; every node from the n-th on is a merge of the two least of the indices still unmerged, by the key (frequency, index):
the least is its left child, the next its right child. There are n − 1 merges. Sums are of 32 bits (log 6). -/
def Obligations.BuildMergesTheTwoLeastKeys : Prop :=
  ∀ s : State, s.phase = .counting → 1 ≤ distinctCount s.freq → ∃ t, exec .build s = .next t ∧
    t.node.length = 2 * distinctCount s.freq - 1 ∧
    t.node.take (distinctCount s.freq) =
      (allSymbols.filter (fun sym => s.freq.at sym != 0#32)).map (fun sym => .leaf sym (s.freq.at sym)) ∧
    ∀ i, distinctCount s.freq ≤ i → i < 2 * distinctCount s.freq - 1 →
      ∃ f l r, t.node[i]? = some (.internal f l r) ∧
        f = freqAt t.node l.toNat + freqAt t.node r.toNat ∧
        Unmerged t.node i l.toNat ∧ Unmerged t.node i r.toNat ∧ l ≠ r ∧
        (∀ j, Unmerged t.node i j → j ≠ l.toNat → KeyBelow t.node l.toNat j) ∧
        (∀ j, Unmerged t.node i j → j ≠ l.toNat → j ≠ r.toNat → KeyBelow t.node r.toNat j)

/-- 10_state.md R40: the tree BUILD makes from counts that sum to TOTAL is a strict binary tree over the counted symbols, with
every index but the root named once as a child, and conserves frequency: its root's frequency is TOTAL. -/
def Obligations.BuildMakesAStrictBinaryTree : Prop :=
  ∀ s : State, s.phase = .counting → 1 ≤ distinctCount s.freq → s.total.toNat = freqSum s.freq →
    ∃ t, exec .build s = .next t ∧ TreeOk t

/-! ## Code generator -/

/-- 43_code_generator.md R170, R171: GEN completes in BUILT and CODED; the code of each counted symbol is its root-to-leaf
path ("0" in a singleton tree), the other symbols have none, lengths are the codes' lengths, RESULT is the greatest length,
PHASE = CODED, and nothing else changes. -/
def Obligations.GenDerivesTheCodeTable : Prop :=
  ∀ s : State, s.phase ≠ .counting → TreeOk s → ∃ t, exec .gen s = .next t ∧
    (∀ sym, s.freq.at sym = 0#32 → t.code.at sym = [] ∧ t.codeLen.at sym = 0#8) ∧
    (s.nleaf = 1#9 → ∀ sym, s.freq.at sym ≠ 0#32 → t.code.at sym = [false]) ∧
    (s.nleaf ≠ 1#9 → ∀ sym, s.freq.at sym ≠ 0#32 → leafOnPath s.node s.root (t.code.at sym) = some sym) ∧
    (∀ sym, (t.codeLen.at sym).toNat = (t.code.at sym).length ∧ (t.codeLen.at sym).toNat ≤ t.result.toNat) ∧
    (∃ sym, (t.codeLen.at sym).toNat = t.result.toNat) ∧
    t = { s with code := t.code, codeLen := t.codeLen, phase := .coded, result := t.result, lastErr := none, busy := false }

/-- 43_code_generator.md R172: GEN is idempotent: after a successful GEN another GEN changes nothing. -/
def Obligations.GenIsIdempotent : Prop :=
  ∀ s t : State, exec .gen s = .next t → t.lastErr = none → exec .gen t = .next t

/-- 10_state.md R41 (b): in CODED with two or more leaves the codes form a prefix-free set. -/
def Obligations.CodesArePrefixFree : Prop :=
  ∀ (s : State) (a b : Symbol), Inv s → s.phase = .coded → 2 ≤ s.nleaf.toNat →
    s.freq.at a ≠ 0#32 → s.freq.at b ≠ 0#32 → a ≠ b → ¬ (s.code.at a <+: s.code.at b)

/-! ## Encoder -/

/-- 44_encoder.md R180: ENC of a symbol with a code and room for it appends the code's bits to EOQ in order and answers the
code's length; nothing else changes. The premise on the code's length is 10_state.md R27. -/
def Obligations.EncAppendsTheCode : Prop :=
  ∀ (sym : Symbol) (s : State), s.phase = .coded → s.codeLen.at sym ≠ 0#8 →
    (s.code.at sym).length = (s.codeLen.at sym).toNat → s.eoq.length + (s.codeLen.at sym).toNat ≤ 512 →
    exec (.enc sym) s = .next { s with
      eoq := s.eoq ++ s.code.at sym, result := (s.codeLen.at sym).zeroExtend 32, lastErr := none, busy := false }

/-- 44_encoder.md R180, 40_command_model.md R128, 60_exceptions.md R222, R227: ENC of a symbol without a code fails with
UNKNOWN_SYMBOL (code 2), even when EOQ is full; of a symbol whose code does not fit EOQ, with QUEUE_FULL (code 7). No bit is
pushed. -/
def Obligations.EncFailsWithoutCodeOrRoom : Prop :=
  ∀ (sym : Symbol) (s : State), s.phase = .coded →
    (s.codeLen.at sym = 0#8 → exec (.enc sym) s = .next { s with
      lastErr := some .unknownSymbol, err := s.err ||| 0b000000010#9, busy := false }) ∧
    (s.codeLen.at sym ≠ 0#8 → s.eoq.length ≤ 512 → 512 < s.eoq.length + (s.codeLen.at sym).toNat →
      exec (.enc sym) s = .next { s with
        lastErr := some .queueFull, err := s.err ||| 0b001000000#9, busy := false })

/-! ## Decoder -/

/-- 45_decoder.md R191: one bit step of the decoder: in a tree with two or more leaves the cursor goes to the left child on 0
and to the right child on 1, and a leaf there is emitted with the cursor back at the root; in a singleton tree 0 emits the
sole symbol and 1 fails. -/
def Obligations.DecoderStepFollowsTheTree : Prop :=
  ∀ (nodes : List Node) (root cur : NodeIx) (b : Bool),
    (∀ sym f, nodes[root.toNat]? = some (.leaf sym f) →
      decStep nodes root cur false = (root, .emit sym) ∧ decStep nodes root cur true = (cur, .fail)) ∧
    (∀ f l r f' l' r', nodes[root.toNat]? = some (.internal f' l' r') → nodes[cur.toNat]? = some (.internal f l r) →
      (∀ sym g, nodes[(if b then r else l).toNat]? = some (.leaf sym g) → decStep nodes root cur b = (root, .emit sym)) ∧
      (∀ g l2 r2, nodes[(if b then r else l).toNat]? = some (.internal g l2 r2) →
        decStep nodes root cur b = (if b then r else l, .none)))

/-- The loop of DEC is made of the bit step of 45_decoder.md R191 (R190): no bit leaves the cursor and emits nothing, one bit
does what the step says, and feeding two batches in turn is feeding them as one, so that cursor state persists between DEC
commands (R193). -/
def Obligations.DecoderBatchesCompose : Prop :=
  ∀ (nodes : List Node) (root cur : NodeIx),
    decFeed nodes root cur [] = some (cur, []) ∧
    (∀ (b : Bool) (nxt : NodeIx),
      (decStep nodes root cur b = (nxt, .none) → decFeed nodes root cur [b] = some (nxt, [])) ∧
      (∀ sym, decStep nodes root cur b = (nxt, .emit sym) → decFeed nodes root cur [b] = some (nxt, [sym])) ∧
      (decStep nodes root cur b = (nxt, .fail) → decFeed nodes root cur [b] = none)) ∧
    ∀ xs ys : List Bool, decFeed nodes root cur (xs ++ ys) =
      match decFeed nodes root cur xs with
      | none => none
      | some (mid, out) =>
        match decFeed nodes root mid ys with
        | none => none
        | some (last, out') => some (last, out ++ out')

/-- 45_decoder.md R190: DEC K feeds ARG_L[0] .. ARG_L[K−1] in that order to the decoder; when no step fails and SOQ has K free
entries, the cursor moves, the emitted symbols enter SOQ in order, RESULT is their number and nothing else changes; when a
step fails, MALFORMED_STREAM (code 3); without the room, QUEUE_FULL (code 7), checked first. -/
def Obligations.DecFeedsItsBatch : Prop :=
  ∀ (k : BitVec 6) (s : State), 1 ≤ k.toNat → k.toNat ≤ 32 → s.phase ≠ .counting → s.soq.length ≤ 32 →
    (32 < s.soq.length + k.toNat → exec (.dec k) s = .next { s with
      lastErr := some .queueFull, err := s.err ||| 0b001000000#9, busy := false }) ∧
    (s.soq.length + k.toNat ≤ 32 →
      (∀ cur out, decFeed s.node s.root s.decCur ((List.range k.toNat).map (fun j => s.argL.getLsbD j)) = some (cur, out) →
        exec (.dec k) s = .next { s with
          decCur := cur, soq := s.soq ++ out, result := BitVec.ofNat 32 out.length, lastErr := none, busy := false }) ∧
      (decFeed s.node s.root s.decCur ((List.range k.toNat).map (fun j => s.argL.getLsbD j)) = none →
        exec (.dec k) s = .next { s with
          lastErr := some .malformedStream, err := s.err ||| 0b000000100#9, busy := false }))

/-- 45_decoder.md R191, R192: DEC completes with its own effect in every tree with two or more leaves, whatever the bits, and
in a singleton tree on bits that are all 0; it emits at most K symbols and changes nothing but the cursor, SOQ, RESULT and
the record of success. -/
def Obligations.DecNeverFailsInATree : Prop :=
  ∀ (k : BitVec 6) (s : State), Inv s → 1 ≤ k.toNat → k.toNat ≤ 32 → s.phase ≠ .counting → s.soq.length + k.toNat ≤ 32 →
    (2 ≤ s.nleaf.toNat ∨ ∀ j, j < k.toNat → s.argL.getLsbD j = false) →
    ∃ t out, exec (.dec k) s = .next t ∧ out.length ≤ k.toNat ∧
      t = { s with
        decCur := t.decCur, soq := s.soq ++ out, result := BitVec.ofNat 32 out.length, lastErr := none, busy := false }

/-- 45_decoder.md R194: DEND at the root succeeds with RESULT = 0 and changes nothing else; off the root it fails with
MALFORMED_STREAM (code 3) and leaves the cursor where it is. -/
def Obligations.DendAcceptsOnlyAtTheRoot : Prop :=
  ∀ s : State, s.phase ≠ .counting →
    (s.decCur = s.root → exec .dend s = .next { s with result := 0, lastErr := none, busy := false }) ∧
    (s.decCur ≠ s.root → exec .dend s = .next { s with
      lastErr := some .malformedStream, err := s.err ||| 0b000000100#9, busy := false })

/-- 45_decoder.md R196: DRST sets DEC_CUR to ROOT, answers 0 and changes nothing else; SOQ is not drained. -/
def Obligations.DrstReturnsTheCursorToTheRoot : Prop :=
  ∀ s : State, s.phase ≠ .counting →
    exec .drst s = .next { s with decCur := s.root, result := 0, lastErr := none, busy := false }

/-- 45_decoder.md R195, R197: fed from the root with the concatenated codes of any symbols that have codes, the decoder never
fails, emits exactly those symbols in order, and ends at the root. -/
def Obligations.DecodingInvertsEncoding : Prop :=
  ∀ (s : State) (msg : List Symbol), Inv s → s.phase = .coded → (∀ sym ∈ msg, s.freq.at sym ≠ 0#32) →
    decFeed s.node s.root s.root (msg.flatMap (fun sym => s.code.at sym)) = some (s.root, msg)

/-- The decoder emits nothing but code words: in CODED, whatever bits it is fed from the root, what it consumed is the
concatenated codes of what it emitted and the path to where its cursor stands (45_decoder.md R191, R192, R198). -/
def Obligations.DecoderConsumesExactlyTheEmittedCodes : Prop :=
  ∀ (s : State) (bits : List Bool) (cur : NodeIx) (out : List Symbol), Inv s → s.phase = .coded →
    decFeed s.node s.root s.root bits = some (cur, out) →
    ∃ path, bits = out.flatMap (fun sym => s.code.at sym) ++ path ∧ descend s.node s.root path = some cur

/-! ## The host's address space -/

/-- 20_memory.md R71, R72: every register and window word has its own address, and a legal access names exactly the target of
its address. -/
def Obligations.EveryTargetHasItsOwnAddress : Prop :=
  (∀ t : Target, accessTarget t.offset 4 = some t) ∧
  (∀ (a : Addr) (n : Nat) (t : Target), accessTarget a n = some t → n = 4 ∧ a = t.offset)

/-- 20_memory.md R73, R76: an access of another size than 4, misaligned or to 0x040..0x3FF or 0xC00..0xFFF sets ERR[9] and
resp_err; a read answers 0; nothing else changes. -/
def Obligations.IllegalAccessOnlySetsErrNine : Prop :=
  ∀ (s : State) (a : Addr) (n : Nat) (v : Word) (rest : List Event),
    (n ≠ 4 ∨ a.toNat % 4 ≠ 0 ∨ (0x040 ≤ a.toNat ∧ a.toNat < 0x400) ∨ (0xC00 ≤ a.toNat ∧ a.toNat < 0x1000)) →
    (s.schedule = .host (.read a n) :: rest → step s = .next { s with
      schedule := rest, resp := some (.read 0 true), err := s.err ||| 0b100000000#9 }) ∧
    (s.schedule = .host (.write a n v) :: rest → step s = .next { s with
      schedule := rest, resp := some (.write true), err := s.err ||| 0b100000000#9 })

/-- 20_memory.md R71, R74, 10_state.md R35, R36, R37, R39: what a read of each register that pops nothing
answers; no such read changes the block. -/
def Obligations.RegisterReads : Prop :=
  ∀ (s : State) (a : Addr) (v : Word) (rest : List Event), s.schedule = .host (.read a 4) :: rest →
    (a, v) ∈ ([(0x000, 0x48554646), (0x004, 0), (0x008, s.arg), (0x00C, s.statusWord), (0x010, errWord s.err),
      (0x014, s.result), (0x018, s.total), (0x01C, s.nleaf.zeroExtend 32), (0x020, s.nnode.zeroExtend 32),
      (0x024, s.root.zeroExtend 32), (0x028, s.decCur.zeroExtend 32), (0x02C, BitVec.ofNat 32 s.eoq.length),
      (0x034, BitVec.ofNat 32 s.soq.length), (0x03C, 0x02002008)] : List (Addr × Word)) →
    step s = .next { s with schedule := rest, resp := some (.read v false) }

/-- 20_memory.md R74, R84: a legal read of any other address than EOQ_DATA and SOQ_DATA changes nothing, so the same read
from any state that differs only in the latches and the model's own fields (log 1, log 3), the state the first read leaves
among them, answers the same word and changes nothing either. -/
def Obligations.OtherReadsAreIdempotent : Prop :=
  ∀ (s : State) (a : Addr) (rest : List Event), s.schedule = .host (.read a 4) :: rest → a.toNat % 4 = 0 →
    a.toNat < 0x040 ∨ (0x400 ≤ a.toNat ∧ a.toNat < 0xC00) ∨ 0x1000 ≤ a.toNat → a ≠ 0x030#14 → a ≠ 0x038#14 →
    ∃ v, step s = .next { s with schedule := rest, resp := some (.read v false) } ∧
      ∀ (s' : State) (rest' : List Event),
        s'.unlatched = { s.unlatched with schedule := s'.schedule, resp := s'.resp } →
        s'.schedule = .host (.read a 4) :: rest' →
        step s' = .next { s' with schedule := rest', resp := some (.read v false) }

/-- 10_state.md R35: the fields of STATUS. -/
def Obligations.StatusFields : Prop :=
  ∀ s : State, s.readWord .status = s.statusWord ∧
    s.statusWord.getLsbD 0 = s.busy ∧
    (s.phase = .counting → s.statusWord.extractLsb' 1 2 = 0#2) ∧
    (s.phase = .built → s.statusWord.extractLsb' 1 2 = 1#2) ∧
    (s.phase = .coded → s.statusWord.extractLsb' 1 2 = 2#2) ∧
    s.statusWord.getLsbD 3 = decide (s.decCur = s.root) ∧
    (s.lastErr = none → s.statusWord.extractLsb' 4 4 = 0#4) ∧
    (∀ e, s.lastErr = some e → (s.statusWord.extractLsb' 4 4).toNat = e.code) ∧
    s.statusWord.getLsbD 8 = decide (s.phase ≠ .counting ∧ s.nleaf = 1#9) ∧
    s.statusWord.extractLsb' 9 23 = 0#23

/-- 20_memory.md R81, 10_state.md R36: a write of v to ERR clears every bit c with v[c] = 1 and leaves the others; bits 0 and
31:10 read 0; nothing else changes. -/
def Obligations.ErrWriteClearsTheOnes : Prop :=
  ∀ (s : State) (v : Word) (rest : List Event), s.schedule = .host (.write 0x010 4 v) :: rest →
    ∃ t, step s = .next t ∧ t = { s with schedule := rest, resp := some (.write false), err := t.err } ∧
      ∀ c, c < 32 →
        (t.readWord .err).getLsbD c = ((s.readWord .err).getLsbD c && !v.getLsbD c) ∧
        ((c = 0 ∨ 10 ≤ c) → (s.readWord .err).getLsbD c = false) ∧
        (1 ≤ c → c ≤ 9 → (s.readWord .err).getLsbD c = s.err.getLsbD (c - 1))

/-- 20_memory.md R82: a write of v to ARG sets ARG, whether or not BUSY = 1, and nothing else. -/
def Obligations.ArgWriteSetsArg : Prop :=
  ∀ (s : State) (v : Word) (rest : List Event), s.schedule = .host (.write 0x008 4 v) :: rest →
    step s = .next { s with schedule := rest, resp := some (.write false), arg := v }

/-- 20_memory.md R77: a legal write to a mapped read-only address changes nothing and raises no error. -/
def Obligations.WritesToReadOnlyAddressesAreIgnored : Prop :=
  ∀ (s : State) (a : Addr) (v : Word) (rest : List Event), s.schedule = .host (.write a 4 v) :: rest → a.toNat % 4 = 0 →
    a.toNat < 0x040 ∨ (0x400 ≤ a.toNat ∧ a.toNat < 0xC00) ∨ 0x1000 ≤ a.toNat →
    a ≠ 0x004#14 → a ≠ 0x008#14 → a ≠ 0x010#14 →
    step s = .next { s with schedule := rest, resp := some (.write false) }

/-- 20_memory.md R79: a read of EOQ_DATA pops m = min(16, |EOQ|) bits and returns them oldest first from bit 0, m in [20:16]
and 0 elsewhere. -/
def Obligations.EoqReadPopsUpToSixteenBits : Prop :=
  ∀ (s : State) (rest : List Event), s.schedule = .host (.read 0x030 4) :: rest →
    ∃ w : Word, step s = .next { s with
        schedule := rest, resp := some (.read w false), eoq := s.eoq.drop (min 16 s.eoq.length) } ∧
      (∀ j, j < 16 → w.getLsbD j = (s.eoq[j]?).getD false) ∧
      (w.extractLsb' 16 5).toNat = min 16 s.eoq.length ∧ w.extractLsb' 21 11 = 0#11

/-- 20_memory.md R80: a read of SOQ_DATA returns and pops the oldest symbol with VALID = 1 at bit 8, or returns 0 when SOQ is
empty. -/
def Obligations.SoqReadPopsOneSymbol : Prop :=
  ∀ (s : State) (rest : List Event), s.schedule = .host (.read 0x038 4) :: rest →
    (s.soq = [] → step s = .next { s with schedule := rest, resp := some (.read 0 false) }) ∧
    (∀ sym more, s.soq = sym :: more → step s = .next { s with
      schedule := rest, resp := some (.read (BitVec.ofNat 32 (0x100 + sym.toNat)) false), soq := more })

/-- 10_state.md R34: what a host read of the two window words of a node answers, word 0 at 0x1000 + 8·i and word 1 at
0x1004 + 8·i, and that a write there changes nothing. A read changes nothing but the model's own fields (log 1, log 3). -/
def Obligations.NodeWindowWords : Prop :=
  ∀ (s : State) (i : NodeIx) (a : Addr) (rest : List Event),
    (s.schedule = .host (.read a 4) :: rest → a.toNat = 0x1000 + 8 * i.toNat →
      ∃ w : Word, step s = .next { s with schedule := rest, resp := some (.read w false) } ∧
        (s.nnode ≤ i → w = 0#32) ∧
        (i < s.nnode → ∀ sym f, s.node[i.toNat]? = some (.leaf sym f) → w.toNat = 2 ^ 31 + 2 ^ 30 + sym.toNat) ∧
        (i < s.nnode → ∀ f l r, s.node[i.toNat]? = some (.internal f l r) →
          w.toNat = 2 ^ 31 + 2 ^ 17 * l.toNat + 2 ^ 8 * r.toNat)) ∧
    (s.schedule = .host (.read a 4) :: rest → a.toNat = 0x1004 + 8 * i.toNat →
      ∃ w : Word, step s = .next { s with schedule := rest, resp := some (.read w false) } ∧
        (s.nnode ≤ i → w = 0#32) ∧
        (i < s.nnode → ∀ sym f, s.node[i.toNat]? = some (.leaf sym f) → w = f) ∧
        (i < s.nnode → ∀ f l r, s.node[i.toNat]? = some (.internal f l r) → w = f)) ∧
    (∀ v : Word, s.schedule = .host (.write a 4 v) :: rest →
      a.toNat = 0x1000 + 8 * i.toNat ∨ a.toNat = 0x1004 + 8 * i.toNat →
      step s = .next { s with schedule := rest, resp := some (.write false) })

/-- 10_state.md R38: what a host read of CODE_WIN, CODELEN_WIN and FREQ_WIN answers, at 0x2000 + 32·s + 4·w, 0x800 + 4·s and
0x400 + 4·s. A read changes nothing but the model's own fields (log 1, log 3). The premise on the code's length is R27. -/
def Obligations.CodeAndCountWindowWords : Prop :=
  ∀ (s : State) (sym : Symbol) (a : Addr) (rest : List Event), s.schedule = .host (.read a 4) :: rest →
    (∀ w : BitVec 3, a.toNat = 0x2000 + 32 * sym.toNat + 4 * w.toNat → (s.code.at sym).length = (s.codeLen.at sym).toNat →
      ∃ v : Word, step s = .next { s with schedule := rest, resp := some (.read v false) } ∧
        ∀ k, k < 32 → v.getLsbD k =
          if 32 * w.toNat + k < (s.codeLen.at sym).toNat then ((s.code.at sym)[32 * w.toNat + k]?).getD false else false) ∧
    (a.toNat = 0x800 + 4 * sym.toNat →
      step s = .next { s with schedule := rest, resp := some (.read ((s.codeLen.at sym).zeroExtend 32) false) }) ∧
    (a.toNat = 0x400 + 4 * sym.toNat →
      step s = .next { s with schedule := rest, resp := some (.read (s.freq.at sym) false) })

/-- 92_eei_decisions.md D24, 10_state.md R27: outside CODED the code windows read 0. -/
def Obligations.CodeWindowsReadZeroOutsideCoded : Prop :=
  ∀ (s : State) (sym : Symbol) (w : BitVec 3), Inv s → s.phase ≠ .coded →
    s.readWord (.codeWin sym w) = 0 ∧ s.readWord (.codeLenWin sym) = 0

/-! ## The invariant -/

/-- The reset state meets the invariant. -/
def Obligations.ResetMeetsTheInvariant : Prop := Inv State.reset

/-- Every step, from every state that meets it, keeps the invariant: TOTAL is the sum of the counts (10_state.md R22), the tree
and the code table are as R25, R26, R27, R40 and R41 say, the cursor as R42, the queues within their capacities (R29, R30). -/
def Obligations.EveryStepKeepsTheInvariant : Prop :=
  ∀ s t : State, Inv s → step s = .next t → Inv t
end

