-- ==== Sys2Proof/Laws/Word.lean ====
section
/-! SUPPORT. The laws of a table indexed by a symbol: a read after a write, and what a constant table holds. -/

namespace Sys2Proof

theorem symIx_inj {a b : Symbol} (h : symIx a = symIx b) : a = b := by
  apply BitVec.eq_of_toNat_eq
  simpa [symIx, BitVec.toFin] using congrArg Fin.val h

@[simp] theorem SymTable.at_all {α : Type} (v : α) (sym : Symbol) : (SymTable.all v).at sym = v := by
  simp [SymTable.at, SymTable.all, Vector.get_eq_getElem]

@[simp] theorem SymTable.at_put_same {α : Type} (t : SymTable α) (sym : Symbol) (v : α) : (t.put sym v).at sym = v := by
  simp [SymTable.at, SymTable.put, Vector.get_eq_getElem]

theorem SymTable.at_put_other {α : Type} (t : SymTable α) {sym x : Symbol} (v : α) (h : x ≠ sym) :
    (t.put sym v).at x = t.at x := by
  have hne : (symIx sym).val ≠ (symIx x).val := fun e => h (symIx_inj (Fin.ext e.symm))
  simp [SymTable.at, SymTable.put, Vector.get_eq_getElem, hne]

theorem SymTable.at_put {α : Type} (t : SymTable α) (sym x : Symbol) (v : α) :
    (t.put sym v).at x = if x = sym then v else t.at x := by
  by_cases h : x = sym
  · subst h; simp
  · simp [h, at_put_other t v h]

/-- Two tables with the same entries are equal. -/
theorem SymTable.ext_at {α : Type} {t u : SymTable α} (h : ∀ sym, t.at sym = u.at sym) : t = u := by
  apply Vector.ext
  intro i hi
  have := h (BitVec.ofNat 8 i)
  have e : (symIx (BitVec.ofNat 8 i)).val = i := by
    simp [symIx]; omega
  simpa [SymTable.at, Vector.get_eq_getElem, e] using this

end Sys2Proof
end

