-- ==== Sys2Proof/Laws/TreeBuilder.lean ====
section
/-! SUPPORT. What the tree builder's extraction, its merge loop and a whole merge do (42_tree_builder.md R151 to R155). -/

namespace Sys2Proof.Machine

/-! ### Leaves -/

theorem mem_allSymbols (sym : Symbol) : sym ∈ allSymbols := by
  refine List.mem_map.2 ⟨sym.toNat, ?_, by simp⟩
  have := sym.isLt
  simp only [List.mem_range, Config.nsym]
  omega

theorem nodup_allSymbols : allSymbols.Nodup := by
  refine List.Nodup.map_on ?_ List.nodup_range
  intro x hx y hy h
  simp only [List.mem_range, Config.nsym] at hx hy
  have := congrArg BitVec.toNat h
  simp only [BitVec.toNat_ofNat] at this
  omega

theorem length_createLeaves (freq : SymTable Word) : (createLeaves freq).length = distinctCount freq := by
  simp [createLeaves, distinctCount]

theorem distinctCount_le (freq : SymTable Word) : distinctCount freq ≤ 256 := by
  refine (List.length_filter_le _ _).trans ?_
  simp [allSymbols, Config.nsym]

theorem distinctCount_pos_iff (freq : SymTable Word) : 1 ≤ distinctCount freq ↔ ∃ sym, freq.at sym ≠ 0#32 := by
  unfold distinctCount
  rw [Nat.one_le_iff_ne_zero, Ne, List.length_eq_zero_iff, List.filter_eq_nil_iff]
  constructor
  · intro h
    by_contra hc
    push Not at hc
    exact h (fun a _ => by simp [hc a])
  · rintro ⟨sym, h⟩ hc
    exact absurd (hc sym (mem_allSymbols sym)) (by simpa using h)

theorem childSlots_append (xs ys : List Node) : childSlots (xs ++ ys) = childSlots xs ++ childSlots ys := by
  simp [childSlots]

theorem childSlots_createLeaves (freq : SymTable Word) : childSlots (createLeaves freq) = [] := by
  rw [childSlots, List.flatMap_eq_nil_iff]
  intro n hn
  obtain ⟨sym, _, rfl⟩ := List.mem_map.1 hn
  rfl

/-! ### Keys and extraction -/

theorem keyLt_iff (nodes : List Node) (i j : Nat) : keyLt nodes i j = true ↔ KeyBelow nodes i j := by
  simp [keyLt, KeyBelow]

/-- Of two different indices one has the smaller key. -/
theorem keyBelow_of_not (nodes : List Node) {i j : Nat} (hne : i ≠ j) (h : ¬ KeyBelow nodes j i) :
    KeyBelow nodes i j := by
  unfold KeyBelow at *
  omega

theorem leastKey_mem (nodes : List Node) (best : Nat) (rest : List Nat) :
    leastKey nodes best rest ∈ best :: rest := by
  induction rest generalizing best with
  | nil => simp [leastKey]
  | cons i more ih =>
    have := ih (if keyLt nodes i best then i else best)
    simp only [leastKey, List.mem_cons] at this ⊢
    split at this <;> grind

theorem leastKey_least (nodes : List Node) (best : Nat) (rest : List Nat) :
    ∀ j ∈ best :: rest, ¬ KeyBelow nodes j (leastKey nodes best rest) := by
  induction rest generalizing best with
  | nil =>
    intro j hj
    simp only [List.mem_singleton] at hj
    subst hj
    simp only [leastKey, KeyBelow]
    omega
  | cons i more ih =>
    intro j hj
    simp only [leastKey]
    have hb := ih (if keyLt nodes i best then i else best)
    have h0 := hb _ List.mem_cons_self
    simp only [List.mem_cons] at hj hb
    by_cases hk : keyLt nodes i best = true
    · simp only [hk, if_true] at hb h0 ⊢
      rcases hj with rfl | rfl | hj
      · rw [keyLt_iff] at hk
        unfold KeyBelow at *
        omega
      · exact h0
      · exact hb j (.inr hj)
    · simp only [hk] at hb h0 ⊢
      rcases hj with rfl | rfl | hj
      · exact h0
      · rw [keyLt_iff] at hk
        unfold KeyBelow at *
        simp only [Bool.false_eq_true, if_false] at *
        omega
      · exact hb j (.inr hj)

/-- `ExtractMin` takes the member of least key and leaves the others (42_tree_builder.md R154). -/
theorem extractMin_spec {nodes : List Node} {pq rest : List Nat} {m : Nat} (h : extractMin nodes pq = some (m, rest)) :
    m ∈ pq ∧ rest = pq.erase m ∧ ∀ j ∈ pq, j ≠ m → KeyBelow nodes m j := by
  cases pq with
  | nil => cases h
  | cons i more =>
    simp only [extractMin, Option.some.injEq, Prod.mk.injEq] at h
    obtain ⟨rfl, rfl⟩ := h
    exact ⟨leastKey_mem nodes i more, rfl, fun j hj hne =>
      keyBelow_of_not nodes (Ne.symm hne) (leastKey_least nodes i more j hj)⟩

theorem extractMin_isSome {nodes : List Node} {pq : List Nat} (h : pq ≠ []) : ∃ m rest, extractMin nodes pq = some (m, rest) := by
  cases pq with
  | nil => exact absurd rfl h
  | cons i more => exact ⟨_, _, rfl⟩

/-! ### The merge loop -/

theorem freqAt_append {nodes : List Node} {i : Nat} (x : List Node) (h : i < nodes.length) :
    freqAt (nodes ++ x) i = freqAt nodes i := by
  simp [freqAt, List.getElem?_append_left h]

theorem keyBelow_append {nodes : List Node} {i j : Nat} (x : List Node) (hi : i < nodes.length) (hj : j < nodes.length) :
    KeyBelow (nodes ++ x) i j ↔ KeyBelow nodes i j := by
  simp [KeyBelow, freqAt_append x hi, freqAt_append x hj]

theorem unmerged_append {nodes : List Node} {i : Nat} (x : List Node) (hi : i ≤ nodes.length) (j : Nat) :
    Unmerged (nodes ++ x) i j ↔ Unmerged nodes i j := by
  simp [Unmerged, List.take_append_of_le_length hi]

/-- Node i of a list is the merge of the two least of the indices unmerged before it. -/
def MergedAt (nodes : List Node) (i : Nat) : Prop :=
  ∃ f l r, nodes[i]? = some (.internal f l r) ∧ f = freqAt nodes l.toNat + freqAt nodes r.toNat ∧
    Unmerged nodes i l.toNat ∧ Unmerged nodes i r.toNat ∧ l ≠ r ∧
    (∀ j, Unmerged nodes i j → j ≠ l.toNat → KeyBelow nodes l.toNat j) ∧
    (∀ j, Unmerged nodes i j → j ≠ l.toNat → j ≠ r.toNat → KeyBelow nodes r.toNat j)

theorem MergedAt.append {nodes : List Node} {i : Nat} (x : List Node) (hi : i < nodes.length) (h : MergedAt nodes i) :
    MergedAt (nodes ++ x) i := by
  obtain ⟨f, l, r, hn, hf, hl, hr, hne, h1, h2⟩ := h
  have hl' : l.toNat < nodes.length := lt_trans hl.1 hi
  have hr' : r.toNat < nodes.length := lt_trans hr.1 hi
  refine ⟨f, l, r, by rw [List.getElem?_append_left hi, hn], ?_, ?_, ?_, hne, ?_, ?_⟩
  · rw [freqAt_append x hl', freqAt_append x hr', hf]
  · exact (unmerged_append x hi.le _).2 hl
  · exact (unmerged_append x hi.le _).2 hr
  · intro j hj hjl
    have hj := (unmerged_append x hi.le _).1 hj
    exact (keyBelow_append x hl' (lt_trans hj.1 hi)).2 (h1 j hj hjl)
  · intro j hj hjl hjr
    have hj := (unmerged_append x hi.le _).1 hj
    exact (keyBelow_append x hr' (lt_trans hj.1 hi)).2 (h2 j hj hjl hjr)

/-- What holds between the rounds of `Merge` over the leaves `ls`: N and PQ. -/
structure MergeInv (ls nodes : List Node) (pq : List Nat) : Prop where
  leaves : ls <+: nodes
  size : pq.length + nodes.length = 2 * ls.length
  nodup : pq.Nodup
  mem_iff : ∀ j, j ∈ pq ↔ j < nodes.length ∧ j ∉ childSlots nodes
  slots_nodup : (childSlots nodes).Nodup
  slots_lt : ∀ j ∈ childSlots nodes, j < nodes.length
  merged : ∀ i, ls.length ≤ i → i < nodes.length → MergedAt nodes i

theorem MergeInv.start {ls : List Node} (h : childSlots ls = []) : MergeInv ls ls (List.range ls.length) where
  leaves := List.prefix_refl ls
  size := by simp; omega
  nodup := List.nodup_range
  mem_iff := by simp [h]
  slots_nodup := by simp [h]
  slots_lt := by simp [h]
  merged := by intro i h1 h2; omega

/-- One round keeps the invariant (42_tree_builder.md R152). -/
theorem MergeInv.round {ls nodes : List Node} {pq pq1 pq2 : List Nat} {a b : Nat} (h : MergeInv ls nodes pq)
    (hsize : ls.length ≤ 256) (ha : extractMin nodes pq = some (a, pq1)) (hb : extractMin nodes pq1 = some (b, pq2)) :
    MergeInv ls (nodes ++ [mergedNode nodes a b]) (pq2 ++ [nodes.length]) := by
  obtain ⟨hap, rfl, hamin⟩ := extractMin_spec ha
  obtain ⟨hbp, rfl, hbmin⟩ := extractMin_spec hb
  have hbp' : b ∈ pq ∧ b ≠ a := by
    rw [h.nodup.mem_erase_iff] at hbp
    exact ⟨hbp.2, hbp.1⟩
  have hlen1 := List.length_erase_of_mem hap
  have hlen2 := List.length_erase_of_mem hbp
  have hpos : 0 < (pq.erase a).length := List.length_pos_of_mem hbp
  have hpos' : 0 < pq.length := List.length_pos_of_mem hap
  have hsz := h.size
  have haL := (h.mem_iff a).1 hap
  have hbL := (h.mem_iff b).1 hbp'.1
  have ea : (BitVec.ofNat 9 a).toNat = a := by simp; omega
  have eb : (BitVec.ofNat 9 b).toNat = b := by simp; omega
  have hslots : childSlots (nodes ++ [mergedNode nodes a b]) = childSlots nodes ++ [a, b] := by
    rw [childSlots_append]
    simp only [childSlots, mergedNode, List.flatMap_cons, List.flatMap_nil, Node.children, ea, eb, List.append_nil]
  refine ⟨h.leaves.trans (List.prefix_append _ _), ?_, ?_, ?_, ?_, ?_, ?_⟩
  · simp only [List.length_append, List.length_singleton]
    omega
  · rw [List.nodup_append]
    refine ⟨(h.nodup.erase a).erase b, by simp, ?_⟩
    intro x hx y hy
    have hx' := (h.mem_iff x).1 (List.mem_of_mem_erase (List.mem_of_mem_erase hx))
    simp only [List.mem_singleton] at hy
    omega
  · intro j
    rw [hslots, List.mem_append, (h.nodup.erase a).mem_erase_iff, h.nodup.mem_erase_iff, h.mem_iff]
    simp only [List.length_append, List.length_singleton, List.mem_append, List.mem_cons, List.not_mem_nil, or_false,
      not_or]
    constructor
    · rintro (⟨h1, h2, h3, h4⟩ | rfl)
      · exact ⟨by omega, h4, h2, h1⟩
      · exact ⟨by omega, fun hc => absurd (h.slots_lt _ hc) (by omega), by omega, by omega⟩
    · rintro ⟨h1, h2, h3, h4⟩
      by_cases hj : j = nodes.length
      · exact .inr hj
      · exact .inl ⟨h4, h3, by omega, h2⟩
  · rw [hslots, List.nodup_append]
    refine ⟨h.slots_nodup, by simp [Ne.symm hbp'.2], ?_⟩
    intro x hx y hy
    simp only [List.mem_cons, List.not_mem_nil, or_false] at hy
    rintro rfl
    rcases hy with rfl | rfl
    · exact haL.2 hx
    · exact hbL.2 hx
  · intro j hj
    rw [hslots, List.mem_append] at hj
    simp only [List.mem_cons, List.not_mem_nil, or_false, List.length_append, List.length_singleton] at hj ⊢
    rcases hj with hj | rfl | rfl
    · have := h.slots_lt j hj
      omega
    · omega
    · omega
  · intro i hi hi'
    simp only [List.length_append, List.length_singleton] at hi'
    by_cases hin : i < nodes.length
    · exact (h.merged i hi hin).append _ hin
    · have hi0 : i = nodes.length := by omega
      subst hi0
      have hunm : ∀ j, Unmerged (nodes ++ [mergedNode nodes a b]) nodes.length j ↔ j ∈ pq := by
        intro j
        rw [unmerged_append _ le_rfl, Unmerged, List.take_length, h.mem_iff]
      refine ⟨freqAt nodes a + freqAt nodes b, BitVec.ofNat 9 a, BitVec.ofNat 9 b, ?_, ?_, ?_, ?_, ?_, ?_, ?_⟩
      · simp [mergedNode]
      · rw [ea, eb, freqAt_append _ haL.1, freqAt_append _ hbL.1]
      · rw [ea, hunm]
        exact hap
      · rw [eb, hunm]
        exact hbp'.1
      · intro hc
        have := congrArg BitVec.toNat hc
        rw [ea, eb] at this
        exact hbp'.2 this.symm
      · intro j hj hja
        rw [ea] at hja ⊢
        have hj := (hunm j).1 hj
        exact (keyBelow_append _ haL.1 ((h.mem_iff j).1 hj).1).2 (hamin j hj hja)
      · intro j hj hja hjb
        rw [ea] at hja
        rw [eb] at hjb ⊢
        have hj := (hunm j).1 hj
        exact (keyBelow_append _ hbL.1 ((h.mem_iff j).1 hj).1).2 (hbmin j ((List.mem_erase_of_ne hja).2 hj) hjb)

/-- The loop keeps the invariant, and k rounds over a collection of more than k leave k fewer. -/
theorem MergeInv.loop {ls : List Node} (hsize : ls.length ≤ 256) (k : Nat) :
    ∀ {nodes : List Node} {pq : List Nat}, MergeInv ls nodes pq → k < pq.length →
      MergeInv ls (mergeLoop k nodes pq).1 (mergeLoop k nodes pq).2 ∧ (mergeLoop k nodes pq).2.length + k = pq.length := by
  induction k with
  | zero =>
    intro nodes pq h hk
    exact ⟨h, rfl⟩
  | succ k ih =>
    intro nodes pq h hk
    obtain ⟨a, pq1, ha⟩ := extractMin_isSome (nodes := nodes) (pq := pq) (by rintro rfl; simp at hk)
    have h1 := extractMin_spec ha
    have hlen1 : pq1.length = pq.length - 1 := by rw [h1.2.1, List.length_erase_of_mem h1.1]
    obtain ⟨b, pq2, hb⟩ := extractMin_isSome (nodes := nodes) (pq := pq1) (by rintro rfl; simp at hlen1; omega)
    have h2 := extractMin_spec hb
    have hlen2 : pq2.length = pq1.length - 1 := by rw [h2.2.1, List.length_erase_of_mem h2.1]
    simp only [mergeLoop, ha, hb]
    have hr := ih (h.round hsize ha hb) (by simp; omega)
    refine ⟨hr.1, ?_⟩
    have := hr.2
    simp only [List.length_append, List.length_singleton] at this
    omega

/-- A child's index is below its parent's, so an index that comes last is nobody's child. -/
theorem MergeInv.slots_of_merged {ls nodes : List Node} {pq : List Nat} (h : MergeInv ls nodes pq)
    (hls : childSlots ls = []) {j : Nat} (hj : j ∈ childSlots nodes) : ∃ i, i < nodes.length ∧ j < i ∧ ls.length ≤ i := by
  simp only [childSlots, List.mem_flatMap] at hj
  obtain ⟨n, hn, hjn⟩ := hj
  obtain ⟨i, hi, hin⟩ := List.getElem_of_mem hn
  have hin' : nodes[i]? = some n := by rw [List.getElem?_eq_getElem hi, hin]
  by_cases hl : ls.length ≤ i
  · obtain ⟨f, l, r, hn', _, hl1, hr1, _⟩ := h.merged i hl hi
    rw [hin', Option.some.injEq] at hn'
    subst hn'
    simp only [Node.children, List.mem_cons, List.not_mem_nil, or_false] at hjn
    rcases hjn with rfl | rfl
    · exact ⟨i, hi, hl1.1, hl⟩
    · exact ⟨i, hi, hr1.1, hl⟩
  · exfalso
    have : n ∈ ls := by
      have he := List.IsPrefix.getElem h.leaves (show i < ls.length by omega)
      rw [← hin, ← he]
      exact List.getElem_mem _
    have hcs : j ∈ childSlots ls := by
      simp only [childSlots, List.mem_flatMap]
      exact ⟨n, this, hjn⟩
    rw [hls] at hcs
    simp at hcs

/-- A whole merge over 1 to 256 leaves: 2n − 1 nodes, the last of which is the root, and the loop's invariant over a
collection of the root alone (42_tree_builder.md R152, R153). -/
theorem mergeTree_spec {ls : List Node} (hls : childSlots ls = []) (h1 : 1 ≤ ls.length) (h2 : ls.length ≤ 256) :
    MergeInv ls (mergeTree ls).1 [(mergeTree ls).2] ∧ (mergeTree ls).1.length = 2 * ls.length - 1 ∧
      (mergeTree ls).2 = 2 * ls.length - 2 := by
  obtain ⟨hinv, hlen⟩ := MergeInv.loop h2 (ls.length - 1) (MergeInv.start hls) (by simp; omega)
  have hone : (mergeLoop (ls.length - 1) ls (List.range ls.length)).2.length = 1 := by
    simp only [List.length_range] at hlen
    omega
  obtain ⟨r, hr⟩ := List.length_eq_one_iff.1 hone
  have hroot : (mergeTree ls).2 = r := by simp [mergeTree, hr]
  have hnodes : (mergeTree ls).1 = (mergeLoop (ls.length - 1) ls (List.range ls.length)).1 := rfl
  rw [hr, ← hnodes] at hinv
  have hsz := hinv.size
  simp only [List.length_singleton] at hsz
  have hlast : 2 * ls.length - 2 ∈ [r] := by
    rw [hinv.mem_iff]
    refine ⟨by omega, fun hc => ?_⟩
    obtain ⟨i, hi, hji, _⟩ := hinv.slots_of_merged hls hc
    omega
  simp only [List.mem_singleton] at hlast
  rw [hroot, ← hlast]
  rw [← hlast] at hinv
  exact ⟨hinv, by omega, rfl⟩

/-! ### Frequency conservation -/

/-- The sum of the frequencies of a collection, in natural numbers. -/
def keySum (nodes : List Node) (pq : List Nat) : Nat := (pq.map (fun i => (freqAt nodes i).toNat)).sum

theorem keySum_append {nodes : List Node} (x : List Node) {pq : List Nat} (h : ∀ i ∈ pq, i < nodes.length) :
    keySum (nodes ++ x) pq = keySum nodes pq := by
  unfold keySum
  congr 1
  exact List.map_congr_left (fun i hi => by rw [freqAt_append x (h i hi)])

theorem keySum_erase (nodes : List Node) {pq : List Nat} {a : Nat} (h : a ∈ pq) :
    keySum nodes pq = (freqAt nodes a).toNat + keySum nodes (pq.erase a) := by
  unfold keySum
  rw [← List.sum_cons, ← List.map_cons (f := fun i => (freqAt nodes i).toNat)]
  exact ((List.perm_cons_erase h).map _).sum_eq

/-- Every merged node holds the sum of its children's frequencies, in natural numbers. -/
def SumsAt (ls nodes : List Node) : Prop :=
  ∀ i, ls.length ≤ i → i < nodes.length → ∃ f l r, nodes[i]? = some (.internal f l r) ∧
    l.toNat < i ∧ r.toNat < i ∧ f.toNat = (freqAt nodes l.toNat).toNat + (freqAt nodes r.toNat).toNat

/-- One round keeps the sum of the collection and adds a node that does not overflow (41_frequency.md R144). -/
theorem MergeInv.round_sum {ls nodes : List Node} {pq pq1 pq2 : List Nat} {a b : Nat} (h : MergeInv ls nodes pq)
    (hsize : ls.length ≤ 256) (hsum : keySum nodes pq < 2 ^ 32) (hs : SumsAt ls nodes)
    (ha : extractMin nodes pq = some (a, pq1)) (hb : extractMin nodes pq1 = some (b, pq2)) :
    keySum (nodes ++ [mergedNode nodes a b]) (pq2 ++ [nodes.length]) = keySum nodes pq ∧
      SumsAt ls (nodes ++ [mergedNode nodes a b]) := by
  obtain ⟨hap, rfl, _⟩ := extractMin_spec ha
  obtain ⟨hbp, rfl, _⟩ := extractMin_spec hb
  have hbp' := List.mem_of_mem_erase hbp
  have haL := (h.mem_iff a).1 hap
  have hbL := (h.mem_iff b).1 hbp'
  have hsz := h.size
  have hpos' : 0 < pq.length := List.length_pos_of_mem hap
  have ea : (BitVec.ofNat 9 a).toNat = a := by simp; omega
  have eb : (BitVec.ofNat 9 b).toNat = b := by simp; omega
  have e1 := keySum_erase nodes hap
  have e2 := keySum_erase nodes hbp
  have hnew : freqAt (nodes ++ [mergedNode nodes a b]) nodes.length = freqAt nodes a + freqAt nodes b := by
    simp [freqAt, mergedNode, Node.freq]
  have hadd : (freqAt nodes a + freqAt nodes b).toNat = (freqAt nodes a).toNat + (freqAt nodes b).toNat := by
    rw [BitVec.toNat_add, Nat.mod_eq_of_lt (by omega)]
  constructor
  · have hlt : ∀ i ∈ (pq.erase a).erase b, i < nodes.length := fun i hi =>
      ((h.mem_iff i).1 (List.mem_of_mem_erase (List.mem_of_mem_erase hi))).1
    have : keySum (nodes ++ [mergedNode nodes a b]) ((pq.erase a).erase b ++ [nodes.length]) =
        keySum (nodes ++ [mergedNode nodes a b]) ((pq.erase a).erase b) +
          (freqAt (nodes ++ [mergedNode nodes a b]) nodes.length).toNat := by simp [keySum]
    rw [this, keySum_append _ hlt, hnew, hadd]
    omega
  · intro i hi hi'
    simp only [List.length_append, List.length_singleton] at hi'
    by_cases hin : i < nodes.length
    · obtain ⟨f, l, r, h1, h2, h3, h4⟩ := hs i hi hin
      refine ⟨f, l, r, by rw [List.getElem?_append_left hin, h1], h2, h3, ?_⟩
      rw [freqAt_append _ (lt_trans h2 hin), freqAt_append _ (lt_trans h3 hin), h4]
    · have hi0 : i = nodes.length := by omega
      subst hi0
      refine ⟨_, _, _, by simp [mergedNode]; exact ⟨rfl, rfl, rfl⟩, by rw [ea]; exact haL.1, by rw [eb]; exact hbL.1, ?_⟩
      rw [ea, eb, freqAt_append _ haL.1, freqAt_append _ hbL.1, hadd]

theorem MergeInv.loop_sum {ls : List Node} (hsize : ls.length ≤ 256) (k : Nat) :
    ∀ {nodes : List Node} {pq : List Nat}, MergeInv ls nodes pq → k < pq.length → keySum nodes pq < 2 ^ 32 → SumsAt ls nodes →
      keySum (mergeLoop k nodes pq).1 (mergeLoop k nodes pq).2 = keySum nodes pq ∧ SumsAt ls (mergeLoop k nodes pq).1 := by
  induction k with
  | zero =>
    intro nodes pq _ _ _ hs
    exact ⟨rfl, hs⟩
  | succ k ih =>
    intro nodes pq h hk hsum hs
    obtain ⟨a, pq1, ha⟩ := extractMin_isSome (nodes := nodes) (pq := pq) (by rintro rfl; simp at hk)
    have h1 := extractMin_spec ha
    have hlen1 : pq1.length = pq.length - 1 := by rw [h1.2.1, List.length_erase_of_mem h1.1]
    obtain ⟨b, pq2, hb⟩ := extractMin_isSome (nodes := nodes) (pq := pq1) (by rintro rfl; simp at hlen1; omega)
    have h2 := extractMin_spec hb
    have hlen2 : pq2.length = pq1.length - 1 := by rw [h2.2.1, List.length_erase_of_mem h2.1]
    have hr := h.round_sum hsize hsum hs ha hb
    simp only [mergeLoop, ha, hb]
    have := ih (h.round hsize ha hb) (by simp; omega) (by rw [hr.1]; exact hsum) hr.2
    exact ⟨this.1.trans hr.1, this.2⟩

theorem sum_filter_nonzero (freq : SymTable Word) (l : List Symbol) :
    ((l.filter (fun sym => freq.at sym != 0#32)).map (fun sym => (freq.at sym).toNat)).sum =
      (l.map (fun sym => (freq.at sym).toNat)).sum := by
  induction l with
  | nil => rfl
  | cons x l ih =>
    by_cases h : freq.at x = 0#32
    · simp [h, ih]
    · simp [h, ih]

/-- The leaves' frequencies sum to the sum of all counts. -/
theorem keySum_createLeaves (freq : SymTable Word) :
    keySum (createLeaves freq) (List.range (createLeaves freq).length) = freqSum freq := by
  have h : (List.range (createLeaves freq).length).map (fun i => (freqAt (createLeaves freq) i).toNat) =
      (createLeaves freq).map (fun n => n.freq.toNat) := by
    apply List.ext_getElem
    · simp
    · intro i h1 h2
      simp only [List.length_map, List.length_range] at h1
      simp [freqAt, h1]
  rw [keySum, h, createLeaves, List.map_map]
  have e : ((fun n : Node => n.freq.toNat) ∘ fun sym => Node.leaf sym (freq.at sym)) = fun sym => (freq.at sym).toNat := rfl
  rw [e, freqSum]
  exact sum_filter_nonzero freq allSymbols

/-- A whole merge conserves frequency: the root's frequency is the sum of all counts (10_state.md R40 (c), (e)). -/
theorem mergeTree_sum {freq : SymTable Word} (h1 : 1 ≤ (createLeaves freq).length) (hsum : freqSum freq < 2 ^ 32) :
    (freqAt (mergeTree (createLeaves freq)).1 (mergeTree (createLeaves freq)).2).toNat = freqSum freq ∧
      SumsAt (createLeaves freq) (mergeTree (createLeaves freq)).1 := by
  have h2 : (createLeaves freq).length ≤ 256 := by rw [length_createLeaves]; exact distinctCount_le freq
  have hs0 : SumsAt (createLeaves freq) (createLeaves freq) := fun i h h' => by omega
  have hk := keySum_createLeaves freq
  have hl := MergeInv.loop_sum h2 ((createLeaves freq).length - 1) (MergeInv.start (childSlots_createLeaves freq))
    (by simp; omega) (by rw [hk]; exact hsum) hs0
  obtain ⟨_, hlen⟩ := MergeInv.loop h2 ((createLeaves freq).length - 1) (MergeInv.start (childSlots_createLeaves freq))
    (by simp; omega)
  have hone : (mergeLoop ((createLeaves freq).length - 1) (createLeaves freq)
      (List.range (createLeaves freq).length)).2.length = 1 := by
    simp only [List.length_range] at hlen
    omega
  obtain ⟨r, hr⟩ := List.length_eq_one_iff.1 hone
  rw [hr, hk] at hl
  refine ⟨?_, hl.2⟩
  have hroot : (mergeTree (createLeaves freq)).2 = r := by simp [mergeTree, hr]
  rw [hroot, ← hl.1]
  simp [keySum, mergeTree]

end Sys2Proof.Machine
end

