-- ==== Sys2Proof/Laws/Tree.lean ====
section
/-! SUPPORT. Paths in a tree that meets the tree invariant (10_state.md R40): every node is reached from the root by exactly
one path, and how long a path to a leaf is. -/

namespace Sys2Proof.Machine

/-! ### Paths -/

theorem descend_append (nodes : List Node) (i : NodeIx) (p q : List Bool) :
    descend nodes i (p ++ q) = (descend nodes i p).bind (fun j => descend nodes j q) := by
  induction p generalizing i with
  | nil => rfl
  | cons b p ih =>
    simp only [List.cons_append, descend]
    split
    · exact ih _
    · rfl

/-- One more branch: the last node of the path is internal and the branch takes one of its children. -/
theorem descend_snoc_iff {nodes : List Node} {i j : NodeIx} {p : List Bool} {b : Bool} :
    descend nodes i (p ++ [b]) = some j ↔
      ∃ a f l r, descend nodes i p = some a ∧ nodes[a.toNat]? = some (.internal f l r) ∧ (if b then r else l) = j := by
  rw [descend_append, Option.bind_eq_some_iff]
  constructor
  · rintro ⟨a, ha, h⟩
    simp only [descend] at h
    split at h
    · rename_i f l r hn
      exact ⟨a, f, l, r, ha, hn, Option.some.inj h⟩
    · cases h
  · rintro ⟨a, f, l, r, ha, hn, rfl⟩
    refine ⟨a, ha, ?_⟩
    simp [descend, hn]

/-- From a leaf only the empty path leads anywhere. -/
theorem descend_leaf {nodes : List Node} {i j : NodeIx} {q : List Bool} {sym : Symbol} {f : Word}
    (hn : nodes[i.toNat]? = some (.leaf sym f)) (h : descend nodes i q = some j) : q = [] := by
  cases q with
  | nil => rfl
  | cons b q => simp [descend, hn] at h

theorem leafOnPath_iff {nodes : List Node} {root : NodeIx} {p : List Bool} {sym : Symbol} :
    leafOnPath nodes root p = some sym ↔ ∃ j f, descend nodes root p = some j ∧ nodes[j.toNat]? = some (.leaf sym f) := by
  unfold leafOnPath
  constructor
  · intro h
    split at h
    · cases h
    · rename_i j hj
      split at h
      · rename_i s' f hn
        cases h
        exact ⟨j, f, hj, hn⟩
      · cases h
  · rintro ⟨j, f, hj, hn⟩
    simp [hj, hn]

/-- Two leaves' paths, one a prefix of the other, lead to the same leaf. -/
theorem leafOnPath_prefix {nodes : List Node} {root : NodeIx} {p q : List Bool} {a b : Symbol}
    (ha : leafOnPath nodes root p = some a) (hb : leafOnPath nodes root q = some b) (h : p <+: q) : p = q ∧ a = b := by
  obtain ⟨j, f, hj, hn⟩ := leafOnPath_iff.1 ha
  obtain ⟨j', f', hj', hn'⟩ := leafOnPath_iff.1 hb
  obtain ⟨t, rfl⟩ := h
  rw [descend_append, hj, Option.bind_some] at hj'
  have ht := descend_leaf hn hj'
  subst ht
  simp only [descend, Option.some.injEq] at hj'
  subst hj'
  rw [hn] at hn'
  cases hn'
  simp

/-! ### The tree invariant -/

section
variable {s : State} (h : TreeOk s)
include h

theorem TreeOk.leaf_at {i : Nat} (hi : i < s.nleaf.toNat) :
    ∃ sym, s.freq.at sym ≠ 0#32 ∧ s.node[i]? = some (.leaf sym (s.freq.at sym)) := by
  have hl := h.leaves
  have hlen := h.length_eq
  have hn := h.nnode_eq
  have hp := h.nleaf_pos
  have hil : i < s.node.length := by omega
  have hget : (s.node.take s.nleaf.toNat)[i]? = s.node[i]? := by rw [List.getElem?_take, if_pos hi]
  rw [hl, List.getElem?_eq_getElem hil] at hget
  have hm := List.mem_of_getElem? hget
  obtain ⟨sym, hs, he⟩ := List.mem_map.1 hm
  refine ⟨sym, by simpa using (List.mem_filter.1 hs).2, ?_⟩
  rw [List.getElem?_eq_getElem hil, ← he]

/-- Every symbol of nonzero count has a leaf. -/
theorem TreeOk.leaf_of {sym : Symbol} (hs : s.freq.at sym ≠ 0#32) :
    ∃ i < s.nleaf.toNat, s.node[i]? = some (.leaf sym (s.freq.at sym)) := by
  have hm : Node.leaf sym (s.freq.at sym) ∈ s.node.take s.nleaf.toNat := by
    rw [h.leaves]
    exact List.mem_map.2 ⟨sym, List.mem_filter.2 ⟨mem_allSymbols sym, by simpa using hs⟩, rfl⟩
  obtain ⟨i, hi, he⟩ := List.getElem_of_mem hm
  have hi' : i < s.nleaf.toNat := by
    simp only [List.length_take] at hi
    omega
  refine ⟨i, hi', ?_⟩
  rw [← he, List.getElem_take, List.getElem?_eq_getElem]

/-- An internal node stands at or above NLEAF, a leaf below it. -/
theorem TreeOk.internal_ge {i : Nat} {f : Word} {l r : NodeIx} (hn : s.node[i]? = some (.internal f l r)) :
    s.nleaf.toNat ≤ i ∧ i < s.nnode.toNat ∧ l.toNat < i ∧ r.toNat < i := by
  have hlt : i < s.nnode.toNat := by
    rw [← h.length_eq]
    by_contra hc
    rw [List.getElem?_eq_none (by omega)] at hn
    cases hn
  have hge : s.nleaf.toNat ≤ i := by
    by_contra hc
    obtain ⟨sym, _, he⟩ := h.leaf_at (by omega : i < s.nleaf.toNat)
    rw [he] at hn
    cases hn
  obtain ⟨f', l', r', he, h1, h2, _⟩ := h.internals i hlt hge
  rw [he] at hn
  cases hn
  exact ⟨hge, hlt, h1, h2⟩

theorem TreeOk.leaf_lt {i : Nat} {sym : Symbol} {f : Word} (hn : s.node[i]? = some (.leaf sym f)) :
    i < s.nleaf.toNat ∧ s.freq.at sym ≠ 0#32 := by
  have hlt : i < s.nnode.toNat := by
    rw [← h.length_eq]
    by_contra hc
    rw [List.getElem?_eq_none (by omega)] at hn
    cases hn
  by_cases hge : s.nleaf.toNat ≤ i
  · obtain ⟨f', l', r', he, _⟩ := h.internals i hlt hge
    rw [he] at hn
    cases hn
  · refine ⟨by omega, ?_⟩
    obtain ⟨sym', hs, he⟩ := h.leaf_at (by omega : i < s.nleaf.toNat)
    rw [he] at hn
    cases hn
    exact hs

/-- A symbol has one leaf. -/
theorem TreeOk.leaf_inj {i j : Nat} {sym : Symbol} {f g : Word} (hi : s.node[i]? = some (.leaf sym f))
    (hj : s.node[j]? = some (.leaf sym g)) : i = j := by
  have hi' := h.leaf_lt hi
  have hj' := h.leaf_lt hj
  have hl := h.leaves
  have hnd : (allSymbols.filter (fun sym => s.freq.at sym != 0#32)).Nodup := nodup_allSymbols.filter _
  have key : ∀ {k : Nat} {f : Word}, k < s.nleaf.toNat → s.node[k]? = some (.leaf sym f) →
      (allSymbols.filter (fun sym => s.freq.at sym != 0#32))[k]? = some sym := by
    intro k f hk hn
    have : (s.node.take s.nleaf.toNat)[k]? = some (.leaf sym f) := by rw [List.getElem?_take, if_pos hk, hn]
    rw [hl, List.getElem?_map, Option.map_eq_some_iff] at this
    obtain ⟨x, hx, hxe⟩ := this
    cases hxe
    exact hx
  have e1 := key hi'.1 hi
  have e2 := key hj'.1 hj
  obtain ⟨h1, g1⟩ := List.getElem?_eq_some_iff.1 e1
  obtain ⟨h2, g2⟩ := List.getElem?_eq_some_iff.1 e2
  exact (List.Nodup.getElem_inj_iff hnd).1 (g1.trans g2.symm)

theorem TreeOk.childSlots_nodup : (childSlots s.node).Nodup := by
  rw [List.nodup_iff_count_le_one]
  intro a
  by_cases ha : a < s.nnode.toNat
  · rw [h.child_once a ha]
    split <;> simp
  · rw [List.count_eq_zero.2]
    · simp
    intro hm
    simp only [childSlots, List.mem_flatMap] at hm
    obtain ⟨n, hn, hc⟩ := hm
    obtain ⟨i, hi, he⟩ := List.getElem_of_mem hn
    cases n with
    | leaf _ _ => simp [Node.children] at hc
    | internal f l r =>
      have := h.internal_ge (by rw [List.getElem?_eq_getElem hi, he])
      simp only [Node.children, List.mem_cons, List.not_mem_nil, or_false] at hc
      rcases hc with rfl | rfl <;> omega

omit h in
theorem mem_childSlots {nodes : List Node} {a : Nat} {f : Word} {l r : NodeIx} (hn : nodes[a]? = some (.internal f l r))
    (b : Bool) : (if b then r else l).toNat ∈ childSlots nodes := by
  simp only [childSlots, List.mem_flatMap]
  refine ⟨_, List.mem_of_getElem? hn, ?_⟩
  cases b <;> simp [Node.children]

/-- A node has one parent and is one of its two children. -/
theorem TreeOk.parent_unique {a a' : Nat} {f f' : Word} {l r l' r' : NodeIx} {b b' : Bool}
    (hn : s.node[a]? = some (.internal f l r)) (hn' : s.node[a']? = some (.internal f' l' r'))
    (hc : (if b then r else l) = if b' then r' else l') : a = a' ∧ b = b' := by
  have hnd := h.childSlots_nodup
  rw [childSlots, List.nodup_flatMap] at hnd
  have haa : a = a' := by
    by_contra hne
    obtain ⟨ha, ga⟩ := List.getElem?_eq_some_iff.1 hn
    obtain ⟨ha', ga'⟩ := List.getElem?_eq_some_iff.1 hn'
    have hmem : (if b then r else l).toNat ∈ (s.node[a]).children := by rw [ga]; cases b <;> simp [Node.children]
    have hmem' : (if b then r else l).toNat ∈ (s.node[a']).children := by rw [ga', hc]; cases b' <;> simp [Node.children]
    rcases Nat.lt_or_gt_of_ne hne with hlt | hlt
    · exact List.pairwise_iff_getElem.1 hnd.2 a a' ha ha' hlt hmem hmem'
    · exact List.pairwise_iff_getElem.1 hnd.2 a' a ha' ha hlt hmem' hmem
  subst haa
  rw [hn] at hn'
  cases hn'
  have hlr := hnd.1 _ (List.mem_of_getElem? hn)
  have hne : l ≠ r := by
    rintro rfl
    simp [Node.children] at hlr
  refine ⟨rfl, ?_⟩
  cases b <;> cases b' <;> simp_all

/-- Two paths from the root to one node are the same path. -/
theorem TreeOk.path_unique {p q : List Bool} {j : NodeIx} (hp : descend s.node s.root p = some j)
    (hq : descend s.node s.root q = some j) : p = q := by
  have root_not : ∀ {p : List Bool} {b : Bool}, descend s.node s.root (p ++ [b]) = some s.root → False := by
    intro p b hd
    obtain ⟨a, f, l, r, _, hn, hc⟩ := descend_snoc_iff.1 hd
    have hm := mem_childSlots hn b
    rw [hc] at hm
    have hr := h.root_eq
    have := h.child_once s.root.toNat (by omega)
    rw [if_pos rfl, List.count_eq_zero] at this
    exact this hm
  induction p using List.reverseRecOn generalizing q j with
  | nil =>
    simp only [descend, Option.some.injEq] at hp
    subst hp
    rcases List.eq_nil_or_concat q with rfl | ⟨q', b, rfl⟩
    · rfl
    · rw [List.concat_eq_append] at hq
      exact (root_not hq).elim
  | append_singleton p b ih =>
    rcases List.eq_nil_or_concat q with rfl | ⟨q', b', rfl⟩
    · simp only [descend, Option.some.injEq] at hq
      subst hq
      exact (root_not hp).elim
    · rw [List.concat_eq_append] at hq ⊢
      obtain ⟨a, f, l, r, hpa, hn, hc⟩ := descend_snoc_iff.1 hp
      obtain ⟨a', f', l', r', hqa, hn', hc'⟩ := descend_snoc_iff.1 hq
      obtain ⟨haa, hbb⟩ := h.parent_unique hn hn' (hc.trans hc'.symm)
      have haa := BitVec.eq_of_toNat_eq haa
      subst haa
      subst hbb
      rw [ih hpa hqa]

/-- Every node is reached from the root. -/
theorem TreeOk.reachable (j : NodeIx) (hj : j.toNat < s.nnode.toNat) : ∃ p, descend s.node s.root p = some j := by
  have hr := h.root_eq
  induction hk : s.nnode.toNat - j.toNat using Nat.strongRecOn generalizing j with
  | _ k ih =>
    by_cases hroot : j.toNat = s.root.toNat
    · exact ⟨[], by rw [BitVec.eq_of_toNat_eq hroot]; rfl⟩
    · have hcount := h.child_once j.toNat hj
      rw [if_neg hroot] at hcount
      have hm : j.toNat ∈ childSlots s.node := List.count_pos_iff.1 (by omega)
      simp only [childSlots, List.mem_flatMap] at hm
      obtain ⟨n, hn, hc⟩ := hm
      obtain ⟨i, hi, he⟩ := List.getElem_of_mem hn
      cases n with
      | leaf _ _ => simp [Node.children] at hc
      | internal f l r =>
        have hn' : s.node[i]? = some (.internal f l r) := by rw [List.getElem?_eq_getElem hi, he]
        have hge := h.internal_ge hn'
        have hbit : i < 512 := by
          have := s.nnode.isLt
          omega
        have ei : (BitVec.ofNat 9 i).toNat = i := by simp; omega
        have hchild : ∃ b : Bool, (if b then r else l) = j := by
          simp only [Node.children, List.mem_cons, List.not_mem_nil, or_false] at hc
          rcases hc with hc | hc
          · exact ⟨false, BitVec.eq_of_toNat_eq hc.symm⟩
          · exact ⟨true, BitVec.eq_of_toNat_eq hc.symm⟩
        obtain ⟨b, hb⟩ := hchild
        have hlt : j.toNat < i := by
          rw [← hb]
          cases b
          · exact hge.2.2.1
          · exact hge.2.2.2
        obtain ⟨p, hp⟩ := ih (s.nnode.toNat - i) (by omega) (BitVec.ofNat 9 i) (by omega) (by rw [ei])
        exact ⟨p ++ [b], descend_snoc_iff.2 ⟨_, f, l, r, hp, by rw [ei]; exact hn', hb⟩⟩

/-- A nonempty path from node i has at most i + 1 − NLEAF branches. -/
theorem TreeOk.path_length {i j : NodeIx} {b : Bool} {p : List Bool} (hd : descend s.node i (b :: p) = some j) :
    s.nleaf.toNat + (b :: p).length ≤ i.toNat + 1 := by
  induction p generalizing i b with
  | nil =>
    simp only [descend] at hd
    split at hd
    · rename_i f l r hn
      have := h.internal_ge hn
      simp
      omega
    · cases hd
  | cons c p ih =>
    rw [descend] at hd
    split at hd
    · rename_i f l r hn
      have hge := h.internal_ge hn
      have := ih hd
      have hlt : (if b then r else l).toNat < i.toNat := by
        cases b
        · exact hge.2.2.1
        · exact hge.2.2.2
      simp only [List.length_cons] at this ⊢
      omega
    · cases hd

/-- With two or more leaves the root is internal. -/
theorem TreeOk.root_internal (h2 : 2 ≤ s.nleaf.toNat) : ∃ f l r, s.node[s.root.toNat]? = some (.internal f l r) := by
  have := h.root_eq
  have := h.nnode_eq
  obtain ⟨f, l, r, hn, _⟩ := h.internals s.root.toNat (by omega) (by omega)
  exact ⟨f, l, r, hn⟩

/-- With one leaf the tree is that leaf. -/
theorem TreeOk.sole_leaf (h1 : s.nleaf.toNat = 1) :
    ∃ sym, s.freq.at sym ≠ 0#32 ∧ s.root = 0#9 ∧ s.node = [.leaf sym (s.freq.at sym)] ∧ ∀ x, s.freq.at x ≠ 0#32 → x = sym := by
  have hr := h.root_eq
  have hn := h.nnode_eq
  have hlen := h.length_eq
  obtain ⟨sym, hs, he⟩ := h.leaf_at (i := 0) (by omega)
  have hlen1 : s.node.length = 1 := by omega
  obtain ⟨x, hx⟩ := List.length_eq_one_iff.1 hlen1
  rw [hx] at he
  simp only [List.getElem?_cons_zero, Option.some.injEq] at he
  refine ⟨sym, hs, BitVec.eq_of_toNat_eq (by simp; omega), by rw [hx, he], ?_⟩
  intro y hy
  obtain ⟨i, hi, hiy⟩ := h.leaf_of hy
  have hi0 : i = 0 := by omega
  subst hi0
  rw [hx, he] at hiy
  simp only [List.getElem?_cons_zero, Option.some.injEq] at hiy
  cases hiy
  rfl

end

end Sys2Proof.Machine
end

