-- ==== Sys2Proof/Laws/CodeGenerator.lean ====
section
/-! SUPPORT. What the walk of GEN writes (43_code_generator.md R170, R173): in a tree, for each counted symbol its one
root-to-leaf path and nothing else. -/

namespace Sys2Proof.Machine

/-! ### The walk -/

/-- The walk writes exactly the leaves below its node, each with the path to it, as deep as its fuel. -/
theorem mem_walk_iff {nodes : List Node} {fuel : Nat} {i : NodeIx} {path p : List Bool} {sym : Symbol} :
    (sym, p) ∈ walk nodes fuel i path ↔
      ∃ q j f, p = path ++ q ∧ descend nodes i q = some j ∧ nodes[j.toNat]? = some (.leaf sym f) ∧ q.length < fuel := by
  induction fuel generalizing i path with
  | zero => simp [walk]
  | succ k ih =>
    rw [walk]
    split
    · rename_i hn
      constructor
      · simp
      · rintro ⟨q, j, f, rfl, hd, hl, _⟩
        cases q with
        | nil =>
          simp only [descend, Option.some.injEq] at hd
          subst hd
          rw [hn] at hl
          cases hl
        | cons b q => simp [descend, hn] at hd
    · rename_i s' f' hn
      constructor
      · intro h
        simp only [List.mem_singleton, Prod.mk.injEq] at h
        obtain ⟨rfl, rfl⟩ := h
        exact ⟨[], i, f', by simp, rfl, hn, by simp⟩
      · rintro ⟨q, j, f, rfl, hd, hl, _⟩
        have hq := descend_leaf hn hd
        subst hq
        simp only [descend, Option.some.injEq] at hd
        subst hd
        rw [hn] at hl
        cases hl
        simp
    · rename_i f' l r hn
      rw [List.mem_append, ih, ih]
      constructor
      · rintro (⟨q, j, f, rfl, hd, hl, hlen⟩ | ⟨q, j, f, rfl, hd, hl, hlen⟩)
        · exact ⟨false :: q, j, f, by simp, by simpa [descend, hn] using hd, hl, by simpa using hlen⟩
        · exact ⟨true :: q, j, f, by simp, by simpa [descend, hn] using hd, hl, by simpa using hlen⟩
      · rintro ⟨q, j, f, rfl, hd, hl, hlen⟩
        cases q with
        | nil =>
          simp only [descend, Option.some.injEq] at hd
          subst hd
          rw [hn] at hl
          cases hl
        | cons b q =>
          simp only [descend, hn] at hd
          simp only [List.length_cons, Nat.add_lt_add_iff_right] at hlen
          cases b
          · exact .inl ⟨q, j, f, by simp, hd, hl, hlen⟩
          · exact .inr ⟨q, j, f, by simp, hd, hl, hlen⟩

/-! ### The tables -/

/-- What one entry of a table holds after a list of writes: the initial value if no write names it, else the value all the
writes that name it agree on. -/
theorem foldl_put_at {α β : Type} (g : β → α) (entries : List (Symbol × β)) (t : SymTable α) (sym : Symbol) (v : α) :
    ((∀ b, (sym, b) ∉ entries) → (entries.foldl (fun t e => t.put e.1 (g e.2)) t).at sym = t.at sym) ∧
    ((∃ b, (sym, b) ∈ entries) → (∀ b, (sym, b) ∈ entries → g b = v) →
      (entries.foldl (fun t e => t.put e.1 (g e.2)) t).at sym = v) := by
  induction entries generalizing t with
  | nil => simp
  | cons e entries ih =>
    obtain ⟨x, b⟩ := e
    have ih := ih (t.put x (g b))
    rw [List.foldl_cons]
    refine ⟨fun h => ?_, fun h hv => ?_⟩
    · rw [ih.1 (fun c hc => h c (List.mem_cons_of_mem _ hc)), SymTable.at_put_other _ _]
      rintro rfl
      exact h b List.mem_cons_self
    · by_cases hc : ∃ c, (sym, c) ∈ entries
      · exact ih.2 hc (fun c hc => hv c (List.mem_cons_of_mem _ hc))
      · rw [ih.1 (fun c hm => hc ⟨c, hm⟩)]
        obtain ⟨c, hm⟩ := h
        rcases List.mem_cons.1 hm with he | he
        · cases he
          rw [SymTable.at_put_same]
          exact hv _ hm
        · exact (hc ⟨c, he⟩).elim

theorem le_foldl_max (g : Symbol → Nat) (l : List Symbol) (m : Nat) :
    m ≤ l.foldl (fun m x => max m (g x)) m ∧ ∀ x ∈ l, g x ≤ l.foldl (fun m x => max m (g x)) m := by
  induction l generalizing m with
  | nil => simp
  | cons y l ih =>
    have := ih (max m (g y))
    rw [List.foldl_cons]
    refine ⟨by omega, ?_⟩
    intro x hx
    rcases List.mem_cons.1 hx with rfl | hx
    · omega
    · exact this.2 x hx

theorem foldl_max_attained (g : Symbol → Nat) (l : List Symbol) (m : Nat) :
    l.foldl (fun m x => max m (g x)) m = m ∨ ∃ x ∈ l, l.foldl (fun m x => max m (g x)) m = g x := by
  induction l generalizing m with
  | nil => simp
  | cons y l ih =>
    rw [List.foldl_cons]
    rcases ih (max m (g y)) with h | ⟨x, hx, h⟩
    · rcases Nat.le_total m (g y) with hm | hm
      · exact .inr ⟨y, List.mem_cons_self, by rw [h]; omega⟩
      · exact .inl (by rw [h]; omega)
    · exact .inr ⟨x, List.mem_cons_of_mem _ hx, h⟩

/-- `maxCodeLen` is the greatest length of the table. -/
theorem maxCodeLen_spec (lens : SymTable (BitVec 8)) :
    (∀ sym, (lens.at sym).toNat ≤ maxCodeLen lens) ∧ (∃ sym, (lens.at sym).toNat = maxCodeLen lens) ∧ maxCodeLen lens ≤ 255 := by
  have h1 := fun sym => (le_foldl_max (fun sym => (lens.at sym).toNat) allSymbols 0).2 sym (mem_allSymbols sym)
  have h2 : ∃ sym, (lens.at sym).toNat = maxCodeLen lens := by
    rcases foldl_max_attained (fun sym => (lens.at sym).toNat) allSymbols 0 with h | ⟨x, _, h⟩
    · have := h1 0#8
      exact ⟨0#8, by unfold maxCodeLen; omega⟩
    · exact ⟨x, h.symm⟩
  refine ⟨h1, h2, ?_⟩
  obtain ⟨sym, h⟩ := h2
  have := (lens.at sym).isLt
  omega

/-! ### In a tree -/

section
variable {s : State} (h : TreeOk s)
include h

/-- The path of a leaf has at most NLEAF − 1 branches. -/
theorem TreeOk.leafPath_length {p : List Bool} {sym : Symbol} (hp : leafOnPath s.node s.root p = some sym) :
    p.length ≤ s.nleaf.toNat - 1 := by
  obtain ⟨j, f, hd, _⟩ := leafOnPath_iff.1 hp
  cases p with
  | nil => simp
  | cons b p =>
    have := h.path_length hd
    have := h.root_eq
    have := h.nnode_eq
    omega

/-- Every counted symbol has a path. -/
theorem TreeOk.leafPath_exists {sym : Symbol} (hs : s.freq.at sym ≠ 0#32) :
    ∃ p, leafOnPath s.node s.root p = some sym := by
  obtain ⟨i, hi, hn⟩ := h.leaf_of hs
  have := h.nnode_eq
  have hb := s.nnode.isLt
  have ei : (BitVec.ofNat 9 i).toNat = i := by simp; omega
  obtain ⟨p, hp⟩ := h.reachable (BitVec.ofNat 9 i) (by omega)
  exact ⟨p, leafOnPath_iff.2 ⟨_, _, hp, by rw [ei]; exact hn⟩⟩

/-- A symbol has one path. -/
theorem TreeOk.leafPath_unique {p q : List Bool} {sym : Symbol} (hp : leafOnPath s.node s.root p = some sym)
    (hq : leafOnPath s.node s.root q = some sym) : p = q := by
  obtain ⟨j, f, hd, hn⟩ := leafOnPath_iff.1 hp
  obtain ⟨j', f', hd', hn'⟩ := leafOnPath_iff.1 hq
  have := BitVec.eq_of_toNat_eq (h.leaf_inj hn hn')
  subst this
  exact h.path_unique hd hd'

/-- A path leads only to counted symbols. -/
theorem TreeOk.leafPath_counted {p : List Bool} {sym : Symbol} (hp : leafOnPath s.node s.root p = some sym) :
    s.freq.at sym ≠ 0#32 := by
  obtain ⟨j, f, _, hn⟩ := leafOnPath_iff.1 hp
  exact (h.leaf_lt hn).2

/-- With two or more leaves the entries of GEN are the root-to-leaf paths. -/
theorem TreeOk.mem_codeEntries (h2 : 2 ≤ s.nleaf.toNat) {p : List Bool} {sym : Symbol} :
    (sym, p) ∈ codeEntries s.node s.root ↔ leafOnPath s.node s.root p = some sym := by
  obtain ⟨f, l, r, hr⟩ := h.root_internal h2
  have : codeEntries s.node s.root = walk s.node s.node.length s.root [] := by simp [codeEntries, hr]
  rw [this, mem_walk_iff]
  constructor
  · rintro ⟨q, j, f, rfl, hd, hn, _⟩
    exact leafOnPath_iff.2 ⟨j, f, by simpa using hd, hn⟩
  · intro hp
    have hlen := h.leafPath_length hp
    obtain ⟨j, f, hd, hn⟩ := leafOnPath_iff.1 hp
    have := h.length_eq
    have := h.nnode_eq
    exact ⟨p, j, f, by simp, hd, hn, by omega⟩

/-- With one leaf the one entry of GEN is "0" for the sole symbol (43_code_generator.md R171). -/
theorem TreeOk.codeEntries_sole (h1 : s.nleaf.toNat = 1) :
    ∃ sym, s.freq.at sym ≠ 0#32 ∧ (∀ x, s.freq.at x ≠ 0#32 → x = sym) ∧ codeEntries s.node s.root = [(sym, [false])] := by
  obtain ⟨sym, hs, hr, hn, hu⟩ := h.sole_leaf h1
  exact ⟨sym, hs, hu, by simp [codeEntries, hr, hn]⟩

/-- The entries of GEN: what stands in them, for every NLEAF. -/
theorem TreeOk.codeEntries_spec :
    (∀ sym p, (sym, p) ∈ codeEntries s.node s.root → s.freq.at sym ≠ 0#32 ∧ 1 ≤ p.length ∧ p.length ≤ max 1 (s.nleaf.toNat - 1)) ∧
    (∀ sym, s.freq.at sym ≠ 0#32 → ∃ p, (sym, p) ∈ codeEntries s.node s.root) ∧
    (∀ sym p q, (sym, p) ∈ codeEntries s.node s.root → (sym, q) ∈ codeEntries s.node s.root → p = q) := by
  have hp := h.nleaf_pos
  rcases Nat.lt_or_ge 1 s.nleaf.toNat with h2 | h1
  · refine ⟨fun sym p hm => ?_, fun sym hs => ?_, fun sym p q hm hm' => ?_⟩
    · rw [h.mem_codeEntries h2] at hm
      refine ⟨h.leafPath_counted hm, ?_, (h.leafPath_length hm).trans (by omega)⟩
      obtain ⟨f, l, r, hr⟩ := h.root_internal h2
      cases p with
      | nil => simp [leafOnPath, descend, hr] at hm
      | cons b p => simp
    · obtain ⟨p, hp⟩ := h.leafPath_exists hs
      exact ⟨p, (h.mem_codeEntries h2).2 hp⟩
    · exact h.leafPath_unique ((h.mem_codeEntries h2).1 hm) ((h.mem_codeEntries h2).1 hm')
  · obtain ⟨sym, hs, hu, he⟩ := h.codeEntries_sole (by omega)
    rw [he]
    refine ⟨fun x p hm => ?_, fun x hx => ?_, fun x p q hm hm' => ?_⟩
    · simp only [List.mem_singleton, Prod.mk.injEq] at hm
      obtain ⟨rfl, rfl⟩ := hm
      exact ⟨hs, by simp⟩
    · exact ⟨[false], by rw [hu x hx]; simp⟩
    · simp only [List.mem_singleton, Prod.mk.injEq] at hm hm'
      rw [hm.2, hm'.2]

/-- The code table GEN writes: a counted symbol has the code of its entry, another none; lengths are the codes'. -/
theorem TreeOk.codeTable_at (sym : Symbol) :
    (∀ p, (sym, p) ∈ codeEntries s.node s.root → (codeTable (codeEntries s.node s.root)).at sym = p ∧
      ((codeLenTable (codeEntries s.node s.root)).at sym).toNat = p.length) ∧
    (s.freq.at sym = 0#32 → (codeTable (codeEntries s.node s.root)).at sym = [] ∧
      (codeLenTable (codeEntries s.node s.root)).at sym = 0#8) := by
  obtain ⟨hspec, _, huniq⟩ := h.codeEntries_spec
  refine ⟨fun p hm => ⟨?_, ?_⟩, fun hs => ⟨?_, ?_⟩⟩
  · exact (foldl_put_at (fun x => x) _ _ sym p).2 ⟨p, hm⟩ (fun q hq => huniq sym q p hq hm)
  · have := (foldl_put_at (fun x : List Bool => BitVec.ofNat 8 x.length) (codeEntries s.node s.root) (SymTable.all 0) sym
      (BitVec.ofNat 8 p.length)).2 ⟨p, hm⟩ (fun q hq => by rw [huniq sym q p hq hm])
    have hb := (hspec sym p hm).2.2
    have e : (codeLenTable (codeEntries s.node s.root)).at sym = BitVec.ofNat 8 p.length := this
    have hn := h.nnode_eq
    have := s.nnode.isLt
    rw [e, BitVec.toNat_ofNat]
    omega
  · have := (foldl_put_at (fun x => x) (codeEntries s.node s.root) (SymTable.all []) sym []).1
      (fun p hm => (hspec sym p hm).1 hs)
    rw [← SymTable.at_all ([] : List Bool) sym]
    exact this
  · have := (foldl_put_at (fun x : List Bool => BitVec.ofNat 8 x.length) (codeEntries s.node s.root) (SymTable.all 0) sym 0).1
      (fun p hm => (hspec sym p hm).1 hs)
    rw [← SymTable.at_all (0#8) sym]
    exact this

end

end Sys2Proof.Machine
end

