-- ==== Sys2Proof/Laws/Decode.lean ====
section
/-! SUPPORT. The fields of a command word and the words of the three formats, as numbers. -/

namespace Sys2Proof

theorem toNat_append_eq {m n : Nat} (x : BitVec m) (y : BitVec n) : (x ++ y).toNat = x.toNat * 2 ^ n + y.toNat := by
  rw [BitVec.toNat_append, ← Nat.shiftLeft_add_eq_or_of_lt y.isLt, Nat.shiftLeft_eq]

theorem opcOf_toNat (w : Word) : (opcOf w).toNat = w.toNat / 2 ^ 24 := by
  simp [opcOf, Nat.shiftRight_eq_div_pow]
  omega

theorem symOf_toNat (w : Word) : (symOf w).toNat = w.toNat % 2 ^ 8 := by simp [symOf]

theorem kOf_toNat (w : Word) : (kOf w).toNat = w.toNat % 2 ^ 6 := by simp [kOf]

theorem reservedOkN_iff (w : Word) : reservedOkN w = true ↔ w.toNat % 2 ^ 24 = 0 := by
  simp [reservedOkN, ← BitVec.toNat_inj]

theorem reservedOkS_iff (w : Word) : reservedOkS w = true ↔ w.toNat % 2 ^ 24 / 2 ^ 8 = 0 := by
  simp [reservedOkS, ← BitVec.toNat_inj, Nat.shiftRight_eq_div_pow]
  omega

theorem reservedOkK_iff (w : Word) : reservedOkK w = true ↔ w.toNat % 2 ^ 24 / 2 ^ 6 = 0 := by
  simp [reservedOkK, ← BitVec.toNat_inj, Nat.shiftRight_eq_div_pow]
  omega

theorem legalK_iff (k : BitVec 6) : legalK k = true ↔ 1 ≤ k.toNat ∧ k.toNat ≤ 32 := by
  unfold legalK
  rw [Bool.and_eq_true, decide_eq_true_eq, decide_eq_true_eq]
  rfl

theorem encodeN_toNat (opc : BitVec 8) : (encodeN opc).toNat = opc.toNat * 2 ^ 24 :=
  (toNat_append_eq opc 0#24).trans (by simp)

theorem encodeS_toNat (opc : BitVec 8) (sym : Symbol) : (encodeS opc sym).toNat = opc.toNat * 2 ^ 24 + sym.toNat := by
  refine (toNat_append_eq opc (0#16 ++ sym)).trans ?_
  rw [toNat_append_eq]
  simp

theorem encodeK_toNat (opc : BitVec 8) (k : BitVec 6) : (encodeK opc k).toNat = opc.toNat * 2 ^ 24 + k.toNat := by
  refine (toNat_append_eq opc (0#18 ++ k)).trans ?_
  rw [toNat_append_eq]
  simp

end Sys2Proof
end

