-- ==== Sys2Proof/Laws/Decoder.lean ====
section
/-! SUPPORT. What the decoder does in a tree (45_decoder.md R191, R192): a step fails only in a singleton tree on a 1, keeps
the cursor on internal nodes or at the root, and a path to a leaf emits that leaf's symbol. -/

namespace Sys2Proof.Machine

/-- Fed with a path to a leaf, the decoder emits its symbol and goes on from the root. -/
theorem decFeed_path {nodes : List Node} {root c j : NodeIx} {f fr : Word} {l r : NodeIx} {p rest : List Bool} {sym : Symbol}
    (hroot : nodes[root.toNat]? = some (.internal f l r)) (hd : descend nodes c p = some j)
    (hn : nodes[j.toNat]? = some (.leaf sym fr)) (hp : p ≠ []) :
    decFeed nodes root c (p ++ rest) = (decFeed nodes root root rest).map (fun x => (x.1, sym :: x.2)) := by
  induction p generalizing c with
  | nil => exact absurd rfl hp
  | cons b p ih =>
    simp only [descend] at hd
    split at hd
    · rename_i f' l' r' hc
      rw [List.cons_append, decFeed]
      simp only [decStep, hroot, hc]
      cases p with
      | nil =>
        simp only [descend, Option.some.injEq] at hd
        subst hd
        simp only [hn, List.nil_append]
        cases decFeed nodes root root rest <;> rfl
      | cons b' p =>
        have hi : ∃ f l r, nodes[(if b then r' else l').toNat]? = some (.internal f l r) := by
          simp only [descend] at hd
          split at hd
          · exact ⟨_, _, _, ‹_›⟩
          · cases hd
        obtain ⟨f2, l2, r2, h2⟩ := hi
        simp only [h2]
        exact ih hd (by simp)
    · cases hd

/-- A cursor as 10_state.md R42 allows it. -/
def CursorOk (s : State) (c : NodeIx) : Prop := c = s.root ∨ ∃ f l r, s.node[c.toNat]? = some (.internal f l r)

section
variable {s : State} (h : TreeOk s)
include h

/-- Every index a node names as a child is the index of a node. -/
theorem TreeOk.child_node {i : Nat} {f : Word} {l r : NodeIx} (hn : s.node[i]? = some (.internal f l r)) (b : Bool) :
    ∃ n, s.node[(if b then r else l).toNat]? = some n := by
  have hge := h.internal_ge hn
  have hlen := h.length_eq
  have : (if b then r else l).toNat < s.node.length := by
    cases b
    · simp; omega
    · simp; omega
  exact ⟨_, List.getElem?_eq_getElem this⟩

/-- In a tree with two or more leaves a step from an internal node goes to an internal child, or emits and returns to the
root. -/
theorem TreeOk.decStep_internal (h2 : 2 ≤ s.nleaf.toNat) {c : NodeIx} {f : Word} {l r : NodeIx}
    (hn : s.node[c.toNat]? = some (.internal f l r)) (b : Bool) :
    (∃ sym g, s.node[(if b then r else l).toNat]? = some (.leaf sym g) ∧
      decStep s.node s.root c b = (s.root, .emit sym)) ∨
    (∃ g l' r', s.node[(if b then r else l).toNat]? = some (.internal g l' r') ∧
      decStep s.node s.root c b = (if b then r else l, .none)) := by
  obtain ⟨f', l', r', hr⟩ := h.root_internal h2
  obtain ⟨n, hc⟩ := h.child_node hn b
  cases n with
  | leaf sym g => exact .inl ⟨sym, g, hc, by simp only [decStep, hr, hn, hc]⟩
  | internal g l2 r2 => exact .inr ⟨g, l2, r2, hc, by simp only [decStep, hr, hn, hc]⟩

theorem TreeOk.cursor_internal (h2 : 2 ≤ s.nleaf.toNat) {c : NodeIx} (hc : CursorOk s c) :
    ∃ f l r, s.node[c.toNat]? = some (.internal f l r) := by
  rcases hc with rfl | hc
  · exact h.root_internal h2
  · exact hc

/-- With one leaf the only cursor is the root, a 0 emits the sole symbol and a 1 fails. -/
theorem TreeOk.decStep_sole (h1 : s.nleaf.toNat = 1) {c : NodeIx} (hc : CursorOk s c) :
    c = s.root ∧ ∃ sym, s.freq.at sym ≠ 0#32 ∧ decStep s.node s.root c false = (s.root, .emit sym) ∧
      decStep s.node s.root c true = (c, .fail) := by
  obtain ⟨sym, hs, hr, hn, _⟩ := h.sole_leaf h1
  refine ⟨?_, sym, hs, by simp [decStep, hr, hn], by simp [decStep, hr, hn]⟩
  rcases hc with rfl | ⟨f, l, r, hc⟩
  · rfl
  · have := h.internal_ge hc
    have := h.nnode_eq
    omega

/-- What a batch leaves: a cursor as R42 allows it, and no more symbols than bits. -/
theorem TreeOk.decFeed_cursor {c last : NodeIx} {bits : List Bool} {out : List Symbol} (hc : CursorOk s c)
    (hf : decFeed s.node s.root c bits = some (last, out)) : CursorOk s last ∧ out.length ≤ bits.length := by
  have hp := h.nleaf_pos
  induction bits generalizing c out with
  | nil =>
    cases hf
    exact ⟨hc, by simp⟩
  | cons b bits ih =>
    rw [decFeed] at hf
    have emit : ∀ sym, decStep s.node s.root c b = (s.root, .emit sym) →
        CursorOk s last ∧ out.length ≤ bits.length + 1 := by
      intro sym he
      rw [he] at hf
      simp only at hf
      split at hf
      · cases hf
      · rename_i last' out' hrec
        cases hf
        have := ih (.inl rfl) hrec
        exact ⟨this.1, by simpa using this.2⟩
    rcases Nat.lt_or_ge 1 s.nleaf.toNat with h2 | h1
    · obtain ⟨f, l, r, hn⟩ := h.cursor_internal h2 hc
      rcases h.decStep_internal h2 hn b with ⟨sym, g, _, he⟩ | ⟨g, l', r', hn', he⟩
      · exact emit sym he
      · rw [he] at hf
        have := ih (.inr ⟨g, l', r', hn'⟩) hf
        exact ⟨this.1, by simp only [List.length_cons]; omega⟩
    · obtain ⟨_, sym, _, h0, h1'⟩ := h.decStep_sole (by omega) hc
      cases b with
      | false => exact emit sym h0
      | true => rw [h1'] at hf; cases hf

/-- A batch fails only in a singleton tree, on a 1 (45_decoder.md R192). -/
theorem TreeOk.decFeed_isSome {c : NodeIx} {bits : List Bool} (hc : CursorOk s c)
    (hb : 2 ≤ s.nleaf.toNat ∨ ∀ b ∈ bits, b = false) : ∃ last out, decFeed s.node s.root c bits = some (last, out) := by
  have hp := h.nleaf_pos
  induction bits generalizing c with
  | nil => exact ⟨c, [], rfl⟩
  | cons b bits ih =>
    have hb' : 2 ≤ s.nleaf.toNat ∨ ∀ b ∈ bits, b = false := hb.imp id (fun hb x hx => hb x (List.mem_cons_of_mem _ hx))
    rw [decFeed]
    rcases Nat.lt_or_ge 1 s.nleaf.toNat with h2 | h1
    · obtain ⟨f, l, r, hn⟩ := h.cursor_internal h2 hc
      rcases h.decStep_internal h2 hn b with ⟨sym, g, _, he⟩ | ⟨g, l', r', hn', he⟩
      · obtain ⟨last, out, hrec⟩ := ih (.inl rfl) hb'
        exact ⟨last, sym :: out, by simp only [he, hrec]⟩
      · obtain ⟨last, out, hrec⟩ := ih (.inr ⟨g, l', r', hn'⟩) hb'
        exact ⟨last, out, by simp only [he, hrec]⟩
    · obtain ⟨_, sym, _, h0, _⟩ := h.decStep_sole (by omega) hc
      have hbf : b = false := (hb.resolve_left (by omega)) b List.mem_cons_self
      subst hbf
      obtain ⟨last, out, hrec⟩ := ih (.inl rfl) hb'
      exact ⟨last, sym :: out, by simp only [h0, hrec]⟩

/-- From a cursor reached by `pre`, what is consumed with `pre` before it is the codes of what is emitted, and the path to
where the cursor then stands. -/
theorem TreeOk.decFeed_consumes (hk : CodeOk s) {c last : NodeIx} {pre bits : List Bool} {out : List Symbol}
    (hc : CursorOk s c) (hd : descend s.node s.root pre = some c) (hf : decFeed s.node s.root c bits = some (last, out)) :
    ∃ path, pre ++ bits = out.flatMap (fun sym => s.code.at sym) ++ path ∧ descend s.node s.root path = some last := by
  have hp := h.nleaf_pos
  induction bits generalizing c pre out with
  | nil =>
    cases hf
    exact ⟨pre, by simp, hd⟩
  | cons b bits ih =>
    rw [decFeed] at hf
    have emit : ∀ sym, decStep s.node s.root c b = (s.root, .emit sym) → s.code.at sym = pre ++ [b] →
        ∃ path, pre ++ b :: bits = out.flatMap (fun sym => s.code.at sym) ++ path ∧ descend s.node s.root path = some last := by
      intro sym he hcode
      rw [he] at hf
      simp only at hf
      split at hf
      · cases hf
      · rename_i last' out' hrec
        cases hf
        obtain ⟨path, hpath, hlast⟩ := ih (pre := []) (.inl rfl) rfl hrec
        refine ⟨path, ?_, hlast⟩
        rw [List.nil_append] at hpath
        rw [List.flatMap_cons, hcode, hpath]
        simp
    rcases Nat.lt_or_ge 1 s.nleaf.toNat with h2 | h1
    · obtain ⟨f, l, r, hn⟩ := h.cursor_internal h2 hc
      have hstep : descend s.node s.root (pre ++ [b]) = some (if b then r else l) := descend_snoc_iff.2 ⟨c, f, l, r, hd, hn, rfl⟩
      rcases h.decStep_internal h2 hn b with ⟨sym, g, hl, he⟩ | ⟨g, l', r', hn', he⟩
      · have hpath := leafOnPath_iff.2 ⟨_, g, hstep, hl⟩
        exact emit sym he (h.leafPath_unique (hk.paths h2 sym (h.leafPath_counted hpath)) hpath)
      · rw [he] at hf
        obtain ⟨path, hpath, hlast⟩ := ih (.inr ⟨g, l', r', hn'⟩) hstep hf
        exact ⟨path, by simpa using hpath, hlast⟩
    · obtain ⟨hroot, sym, hs, h0, h1'⟩ := h.decStep_sole (by omega) hc
      cases b with
      | true => rw [h1'] at hf; cases hf
      | false =>
        refine emit sym h0 ?_
        have hpre : pre = [] := by
          obtain ⟨_, _, hr0, hn, _⟩ := h.sole_leaf (by omega)
          exact descend_leaf (by rw [hr0, hn]; rfl) hd
        rw [hk.sole (by omega) sym hs, hpre]
        rfl

/-- From the root, the code of a counted symbol emits that symbol. -/
theorem TreeOk.decFeed_code (hk : CodeOk s) {sym : Symbol} (hs : s.freq.at sym ≠ 0#32) (rest : List Bool) :
    decFeed s.node s.root s.root (s.code.at sym ++ rest) =
      (decFeed s.node s.root s.root rest).map (fun x => (x.1, sym :: x.2)) := by
  have hp := h.nleaf_pos
  rcases Nat.lt_or_ge 1 s.nleaf.toNat with h2 | h1
  · obtain ⟨f, l, r, hr⟩ := h.root_internal h2
    obtain ⟨j, g, hd, hn⟩ := leafOnPath_iff.1 (hk.paths h2 sym hs)
    refine decFeed_path hr hd hn ?_
    intro he
    rw [he] at hd
    simp only [descend, Option.some.injEq] at hd
    subst hd
    rw [hr] at hn
    cases hn
  · rw [hk.sole (by omega) sym hs]
    obtain ⟨y, _, hr0, hn, hu⟩ := h.sole_leaf (by omega)
    have hy := hu sym hs
    subst hy
    have hstep : decStep s.node s.root s.root false = (s.root, .emit sym) := by simp [decStep, hr0, hn]
    rw [List.singleton_append, decFeed, hstep]
    simp only
    cases decFeed s.node s.root s.root rest <;> rfl

end

end Sys2Proof.Machine
end

