-- ==== Sys2Proof/Laws/State.lean ====
section
/-! SUPPORT. One lemma per field of State per shared update of it (Machine/Ops.lean, HostBus.lean, Engine.lean, Control.lean,
TreeBuilder.lean), so that no later proof unfolds a record update. -/

namespace Sys2Proof.Machine

/-! ### accept -/

@[simp] theorem State.accept_freq (s : State) (v : Word) : (s.accept v).freq = s.freq := rfl
@[simp] theorem State.accept_total (s : State) (v : Word) : (s.accept v).total = s.total := rfl
@[simp] theorem State.accept_node (s : State) (v : Word) : (s.accept v).node = s.node := rfl
@[simp] theorem State.accept_nnode (s : State) (v : Word) : (s.accept v).nnode = s.nnode := rfl
@[simp] theorem State.accept_nleaf (s : State) (v : Word) : (s.accept v).nleaf = s.nleaf := rfl
@[simp] theorem State.accept_root (s : State) (v : Word) : (s.accept v).root = s.root := rfl
@[simp] theorem State.accept_phase (s : State) (v : Word) : (s.accept v).phase = s.phase := rfl
@[simp] theorem State.accept_codeLen (s : State) (v : Word) : (s.accept v).codeLen = s.codeLen := rfl
@[simp] theorem State.accept_code (s : State) (v : Word) : (s.accept v).code = s.code := rfl
@[simp] theorem State.accept_decCur (s : State) (v : Word) : (s.accept v).decCur = s.decCur := rfl
@[simp] theorem State.accept_eoq (s : State) (v : Word) : (s.accept v).eoq = s.eoq := rfl
@[simp] theorem State.accept_soq (s : State) (v : Word) : (s.accept v).soq = s.soq := rfl
@[simp] theorem State.accept_arg (s : State) (v : Word) : (s.accept v).arg = s.arg := rfl
@[simp] theorem State.accept_result (s : State) (v : Word) : (s.accept v).result = s.result := rfl
@[simp] theorem State.accept_lastErr (s : State) (v : Word) : (s.accept v).lastErr = s.lastErr := rfl
@[simp] theorem State.accept_err (s : State) (v : Word) : (s.accept v).err = s.err := rfl
@[simp] theorem State.accept_busy (s : State) (v : Word) : (s.accept v).busy = true := rfl
@[simp] theorem State.accept_cmdL (s : State) (v : Word) : (s.accept v).cmdL = v := rfl
@[simp] theorem State.accept_argL (s : State) (v : Word) : (s.accept v).argL = s.arg := rfl
@[simp] theorem State.accept_schedule (s : State) (v : Word) : (s.accept v).schedule = s.schedule := rfl
@[simp] theorem State.accept_resp (s : State) (v : Word) : (s.accept v).resp = s.resp := rfl

/-! ### recordHostError -/

@[simp] theorem State.recordHostError_freq (s : State) (e : HostError) : (s.recordHostError e).freq = s.freq := rfl
@[simp] theorem State.recordHostError_total (s : State) (e : HostError) : (s.recordHostError e).total = s.total := rfl
@[simp] theorem State.recordHostError_node (s : State) (e : HostError) : (s.recordHostError e).node = s.node := rfl
@[simp] theorem State.recordHostError_nnode (s : State) (e : HostError) : (s.recordHostError e).nnode = s.nnode := rfl
@[simp] theorem State.recordHostError_nleaf (s : State) (e : HostError) : (s.recordHostError e).nleaf = s.nleaf := rfl
@[simp] theorem State.recordHostError_root (s : State) (e : HostError) : (s.recordHostError e).root = s.root := rfl
@[simp] theorem State.recordHostError_phase (s : State) (e : HostError) : (s.recordHostError e).phase = s.phase := rfl
@[simp] theorem State.recordHostError_codeLen (s : State) (e : HostError) : (s.recordHostError e).codeLen = s.codeLen := rfl
@[simp] theorem State.recordHostError_code (s : State) (e : HostError) : (s.recordHostError e).code = s.code := rfl
@[simp] theorem State.recordHostError_decCur (s : State) (e : HostError) : (s.recordHostError e).decCur = s.decCur := rfl
@[simp] theorem State.recordHostError_eoq (s : State) (e : HostError) : (s.recordHostError e).eoq = s.eoq := rfl
@[simp] theorem State.recordHostError_soq (s : State) (e : HostError) : (s.recordHostError e).soq = s.soq := rfl
@[simp] theorem State.recordHostError_arg (s : State) (e : HostError) : (s.recordHostError e).arg = s.arg := rfl
@[simp] theorem State.recordHostError_result (s : State) (e : HostError) : (s.recordHostError e).result = s.result := rfl
@[simp] theorem State.recordHostError_lastErr (s : State) (e : HostError) : (s.recordHostError e).lastErr = s.lastErr := rfl
@[simp] theorem State.recordHostError_err (s : State) (e : HostError) : (s.recordHostError e).err = setErrBit s.err e.code := rfl
@[simp] theorem State.recordHostError_busy (s : State) (e : HostError) : (s.recordHostError e).busy = s.busy := rfl
@[simp] theorem State.recordHostError_cmdL (s : State) (e : HostError) : (s.recordHostError e).cmdL = s.cmdL := rfl
@[simp] theorem State.recordHostError_argL (s : State) (e : HostError) : (s.recordHostError e).argL = s.argL := rfl
@[simp] theorem State.recordHostError_schedule (s : State) (e : HostError) : (s.recordHostError e).schedule = s.schedule := rfl
@[simp] theorem State.recordHostError_resp (s : State) (e : HostError) : (s.recordHostError e).resp = s.resp := rfl

/-! ### completeFail -/

@[simp] theorem State.completeFail_freq (s : State) (e : CmdError) : (s.completeFail e).freq = s.freq := rfl
@[simp] theorem State.completeFail_total (s : State) (e : CmdError) : (s.completeFail e).total = s.total := rfl
@[simp] theorem State.completeFail_node (s : State) (e : CmdError) : (s.completeFail e).node = s.node := rfl
@[simp] theorem State.completeFail_nnode (s : State) (e : CmdError) : (s.completeFail e).nnode = s.nnode := rfl
@[simp] theorem State.completeFail_nleaf (s : State) (e : CmdError) : (s.completeFail e).nleaf = s.nleaf := rfl
@[simp] theorem State.completeFail_root (s : State) (e : CmdError) : (s.completeFail e).root = s.root := rfl
@[simp] theorem State.completeFail_phase (s : State) (e : CmdError) : (s.completeFail e).phase = s.phase := rfl
@[simp] theorem State.completeFail_codeLen (s : State) (e : CmdError) : (s.completeFail e).codeLen = s.codeLen := rfl
@[simp] theorem State.completeFail_code (s : State) (e : CmdError) : (s.completeFail e).code = s.code := rfl
@[simp] theorem State.completeFail_decCur (s : State) (e : CmdError) : (s.completeFail e).decCur = s.decCur := rfl
@[simp] theorem State.completeFail_eoq (s : State) (e : CmdError) : (s.completeFail e).eoq = s.eoq := rfl
@[simp] theorem State.completeFail_soq (s : State) (e : CmdError) : (s.completeFail e).soq = s.soq := rfl
@[simp] theorem State.completeFail_arg (s : State) (e : CmdError) : (s.completeFail e).arg = s.arg := rfl
@[simp] theorem State.completeFail_result (s : State) (e : CmdError) : (s.completeFail e).result = s.result := rfl
@[simp] theorem State.completeFail_lastErr (s : State) (e : CmdError) : (s.completeFail e).lastErr = some e := rfl
@[simp] theorem State.completeFail_err (s : State) (e : CmdError) : (s.completeFail e).err = setErrBit s.err e.code := rfl
@[simp] theorem State.completeFail_busy (s : State) (e : CmdError) : (s.completeFail e).busy = false := rfl
@[simp] theorem State.completeFail_cmdL (s : State) (e : CmdError) : (s.completeFail e).cmdL = s.cmdL := rfl
@[simp] theorem State.completeFail_argL (s : State) (e : CmdError) : (s.completeFail e).argL = s.argL := rfl
@[simp] theorem State.completeFail_schedule (s : State) (e : CmdError) : (s.completeFail e).schedule = s.schedule := rfl
@[simp] theorem State.completeFail_resp (s : State) (e : CmdError) : (s.completeFail e).resp = s.resp := rfl

/-! ### completeOk -/

@[simp] theorem State.completeOk_freq (s : State) (r : Option Word) : (s.completeOk r).freq = s.freq := rfl
@[simp] theorem State.completeOk_total (s : State) (r : Option Word) : (s.completeOk r).total = s.total := rfl
@[simp] theorem State.completeOk_node (s : State) (r : Option Word) : (s.completeOk r).node = s.node := rfl
@[simp] theorem State.completeOk_nnode (s : State) (r : Option Word) : (s.completeOk r).nnode = s.nnode := rfl
@[simp] theorem State.completeOk_nleaf (s : State) (r : Option Word) : (s.completeOk r).nleaf = s.nleaf := rfl
@[simp] theorem State.completeOk_root (s : State) (r : Option Word) : (s.completeOk r).root = s.root := rfl
@[simp] theorem State.completeOk_phase (s : State) (r : Option Word) : (s.completeOk r).phase = s.phase := rfl
@[simp] theorem State.completeOk_codeLen (s : State) (r : Option Word) : (s.completeOk r).codeLen = s.codeLen := rfl
@[simp] theorem State.completeOk_code (s : State) (r : Option Word) : (s.completeOk r).code = s.code := rfl
@[simp] theorem State.completeOk_decCur (s : State) (r : Option Word) : (s.completeOk r).decCur = s.decCur := rfl
@[simp] theorem State.completeOk_eoq (s : State) (r : Option Word) : (s.completeOk r).eoq = s.eoq := rfl
@[simp] theorem State.completeOk_soq (s : State) (r : Option Word) : (s.completeOk r).soq = s.soq := rfl
@[simp] theorem State.completeOk_arg (s : State) (r : Option Word) : (s.completeOk r).arg = s.arg := rfl
@[simp] theorem State.completeOk_result (s : State) (r : Option Word) : (s.completeOk r).result = r.getD s.result := rfl
@[simp] theorem State.completeOk_lastErr (s : State) (r : Option Word) : (s.completeOk r).lastErr = none := rfl
@[simp] theorem State.completeOk_err (s : State) (r : Option Word) : (s.completeOk r).err = s.err := rfl
@[simp] theorem State.completeOk_busy (s : State) (r : Option Word) : (s.completeOk r).busy = false := rfl
@[simp] theorem State.completeOk_cmdL (s : State) (r : Option Word) : (s.completeOk r).cmdL = s.cmdL := rfl
@[simp] theorem State.completeOk_argL (s : State) (r : Option Word) : (s.completeOk r).argL = s.argL := rfl
@[simp] theorem State.completeOk_schedule (s : State) (r : Option Word) : (s.completeOk r).schedule = s.schedule := rfl
@[simp] theorem State.completeOk_resp (s : State) (r : Option Word) : (s.completeOk r).resp = s.resp := rfl

/-! ### eoqPopped -/

@[simp] theorem State.eoqPopped_freq (s : State) : (s.eoqPopped).freq = s.freq := rfl
@[simp] theorem State.eoqPopped_total (s : State) : (s.eoqPopped).total = s.total := rfl
@[simp] theorem State.eoqPopped_node (s : State) : (s.eoqPopped).node = s.node := rfl
@[simp] theorem State.eoqPopped_nnode (s : State) : (s.eoqPopped).nnode = s.nnode := rfl
@[simp] theorem State.eoqPopped_nleaf (s : State) : (s.eoqPopped).nleaf = s.nleaf := rfl
@[simp] theorem State.eoqPopped_root (s : State) : (s.eoqPopped).root = s.root := rfl
@[simp] theorem State.eoqPopped_phase (s : State) : (s.eoqPopped).phase = s.phase := rfl
@[simp] theorem State.eoqPopped_codeLen (s : State) : (s.eoqPopped).codeLen = s.codeLen := rfl
@[simp] theorem State.eoqPopped_code (s : State) : (s.eoqPopped).code = s.code := rfl
@[simp] theorem State.eoqPopped_decCur (s : State) : (s.eoqPopped).decCur = s.decCur := rfl
@[simp] theorem State.eoqPopped_eoq (s : State) : (s.eoqPopped).eoq = s.eoq.drop s.eoqPopCount := rfl
@[simp] theorem State.eoqPopped_soq (s : State) : (s.eoqPopped).soq = s.soq := rfl
@[simp] theorem State.eoqPopped_arg (s : State) : (s.eoqPopped).arg = s.arg := rfl
@[simp] theorem State.eoqPopped_result (s : State) : (s.eoqPopped).result = s.result := rfl
@[simp] theorem State.eoqPopped_lastErr (s : State) : (s.eoqPopped).lastErr = s.lastErr := rfl
@[simp] theorem State.eoqPopped_err (s : State) : (s.eoqPopped).err = s.err := rfl
@[simp] theorem State.eoqPopped_busy (s : State) : (s.eoqPopped).busy = s.busy := rfl
@[simp] theorem State.eoqPopped_cmdL (s : State) : (s.eoqPopped).cmdL = s.cmdL := rfl
@[simp] theorem State.eoqPopped_argL (s : State) : (s.eoqPopped).argL = s.argL := rfl
@[simp] theorem State.eoqPopped_schedule (s : State) : (s.eoqPopped).schedule = s.schedule := rfl
@[simp] theorem State.eoqPopped_resp (s : State) : (s.eoqPopped).resp = s.resp := rfl

/-! ### soqPopped -/

@[simp] theorem State.soqPopped_freq (s : State) : (s.soqPopped).freq = s.freq := rfl
@[simp] theorem State.soqPopped_total (s : State) : (s.soqPopped).total = s.total := rfl
@[simp] theorem State.soqPopped_node (s : State) : (s.soqPopped).node = s.node := rfl
@[simp] theorem State.soqPopped_nnode (s : State) : (s.soqPopped).nnode = s.nnode := rfl
@[simp] theorem State.soqPopped_nleaf (s : State) : (s.soqPopped).nleaf = s.nleaf := rfl
@[simp] theorem State.soqPopped_root (s : State) : (s.soqPopped).root = s.root := rfl
@[simp] theorem State.soqPopped_phase (s : State) : (s.soqPopped).phase = s.phase := rfl
@[simp] theorem State.soqPopped_codeLen (s : State) : (s.soqPopped).codeLen = s.codeLen := rfl
@[simp] theorem State.soqPopped_code (s : State) : (s.soqPopped).code = s.code := rfl
@[simp] theorem State.soqPopped_decCur (s : State) : (s.soqPopped).decCur = s.decCur := rfl
@[simp] theorem State.soqPopped_eoq (s : State) : (s.soqPopped).eoq = s.eoq := rfl
@[simp] theorem State.soqPopped_soq (s : State) : (s.soqPopped).soq = s.soq.drop 1 := rfl
@[simp] theorem State.soqPopped_arg (s : State) : (s.soqPopped).arg = s.arg := rfl
@[simp] theorem State.soqPopped_result (s : State) : (s.soqPopped).result = s.result := rfl
@[simp] theorem State.soqPopped_lastErr (s : State) : (s.soqPopped).lastErr = s.lastErr := rfl
@[simp] theorem State.soqPopped_err (s : State) : (s.soqPopped).err = s.err := rfl
@[simp] theorem State.soqPopped_busy (s : State) : (s.soqPopped).busy = s.busy := rfl
@[simp] theorem State.soqPopped_cmdL (s : State) : (s.soqPopped).cmdL = s.cmdL := rfl
@[simp] theorem State.soqPopped_argL (s : State) : (s.soqPopped).argL = s.argL := rfl
@[simp] theorem State.soqPopped_schedule (s : State) : (s.soqPopped).schedule = s.schedule := rfl
@[simp] theorem State.soqPopped_resp (s : State) : (s.soqPopped).resp = s.resp := rfl

/-! ### cleared -/

@[simp] theorem State.cleared_freq (s : State) : (s.cleared).freq = SymTable.all 0 := rfl
@[simp] theorem State.cleared_total (s : State) : (s.cleared).total = 0 := rfl
@[simp] theorem State.cleared_node (s : State) : (s.cleared).node = [] := rfl
@[simp] theorem State.cleared_nnode (s : State) : (s.cleared).nnode = 0 := rfl
@[simp] theorem State.cleared_nleaf (s : State) : (s.cleared).nleaf = 0 := rfl
@[simp] theorem State.cleared_root (s : State) : (s.cleared).root = 0 := rfl
@[simp] theorem State.cleared_phase (s : State) : (s.cleared).phase = .counting := rfl
@[simp] theorem State.cleared_codeLen (s : State) : (s.cleared).codeLen = SymTable.all 0 := rfl
@[simp] theorem State.cleared_code (s : State) : (s.cleared).code = SymTable.all [] := rfl
@[simp] theorem State.cleared_decCur (s : State) : (s.cleared).decCur = 0 := rfl
@[simp] theorem State.cleared_eoq (s : State) : (s.cleared).eoq = [] := rfl
@[simp] theorem State.cleared_soq (s : State) : (s.cleared).soq = [] := rfl
@[simp] theorem State.cleared_arg (s : State) : (s.cleared).arg = s.arg := rfl
@[simp] theorem State.cleared_result (s : State) : (s.cleared).result = s.result := rfl
@[simp] theorem State.cleared_lastErr (s : State) : (s.cleared).lastErr = s.lastErr := rfl
@[simp] theorem State.cleared_err (s : State) : (s.cleared).err = s.err := rfl
@[simp] theorem State.cleared_busy (s : State) : (s.cleared).busy = s.busy := rfl
@[simp] theorem State.cleared_cmdL (s : State) : (s.cleared).cmdL = s.cmdL := rfl
@[simp] theorem State.cleared_argL (s : State) : (s.cleared).argL = s.argL := rfl
@[simp] theorem State.cleared_schedule (s : State) : (s.cleared).schedule = s.schedule := rfl
@[simp] theorem State.cleared_resp (s : State) : (s.cleared).resp = s.resp := rfl

/-! ### respond -/

@[simp] theorem State.respond_freq (s : State) (r : Option Response) : (s.respond r).freq = s.freq := rfl
@[simp] theorem State.respond_total (s : State) (r : Option Response) : (s.respond r).total = s.total := rfl
@[simp] theorem State.respond_node (s : State) (r : Option Response) : (s.respond r).node = s.node := rfl
@[simp] theorem State.respond_nnode (s : State) (r : Option Response) : (s.respond r).nnode = s.nnode := rfl
@[simp] theorem State.respond_nleaf (s : State) (r : Option Response) : (s.respond r).nleaf = s.nleaf := rfl
@[simp] theorem State.respond_root (s : State) (r : Option Response) : (s.respond r).root = s.root := rfl
@[simp] theorem State.respond_phase (s : State) (r : Option Response) : (s.respond r).phase = s.phase := rfl
@[simp] theorem State.respond_codeLen (s : State) (r : Option Response) : (s.respond r).codeLen = s.codeLen := rfl
@[simp] theorem State.respond_code (s : State) (r : Option Response) : (s.respond r).code = s.code := rfl
@[simp] theorem State.respond_decCur (s : State) (r : Option Response) : (s.respond r).decCur = s.decCur := rfl
@[simp] theorem State.respond_eoq (s : State) (r : Option Response) : (s.respond r).eoq = s.eoq := rfl
@[simp] theorem State.respond_soq (s : State) (r : Option Response) : (s.respond r).soq = s.soq := rfl
@[simp] theorem State.respond_arg (s : State) (r : Option Response) : (s.respond r).arg = s.arg := rfl
@[simp] theorem State.respond_result (s : State) (r : Option Response) : (s.respond r).result = s.result := rfl
@[simp] theorem State.respond_lastErr (s : State) (r : Option Response) : (s.respond r).lastErr = s.lastErr := rfl
@[simp] theorem State.respond_err (s : State) (r : Option Response) : (s.respond r).err = s.err := rfl
@[simp] theorem State.respond_busy (s : State) (r : Option Response) : (s.respond r).busy = s.busy := rfl
@[simp] theorem State.respond_cmdL (s : State) (r : Option Response) : (s.respond r).cmdL = s.cmdL := rfl
@[simp] theorem State.respond_argL (s : State) (r : Option Response) : (s.respond r).argL = s.argL := rfl
@[simp] theorem State.respond_schedule (s : State) (r : Option Response) : (s.respond r).schedule = s.schedule := rfl
@[simp] theorem State.respond_resp (s : State) (r : Option Response) : (s.respond r).resp = r := rfl

/-! ### taken -/

@[simp] theorem State.taken_freq (s : State) (rest : List Event) : (s.taken rest).freq = s.freq := rfl
@[simp] theorem State.taken_total (s : State) (rest : List Event) : (s.taken rest).total = s.total := rfl
@[simp] theorem State.taken_node (s : State) (rest : List Event) : (s.taken rest).node = s.node := rfl
@[simp] theorem State.taken_nnode (s : State) (rest : List Event) : (s.taken rest).nnode = s.nnode := rfl
@[simp] theorem State.taken_nleaf (s : State) (rest : List Event) : (s.taken rest).nleaf = s.nleaf := rfl
@[simp] theorem State.taken_root (s : State) (rest : List Event) : (s.taken rest).root = s.root := rfl
@[simp] theorem State.taken_phase (s : State) (rest : List Event) : (s.taken rest).phase = s.phase := rfl
@[simp] theorem State.taken_codeLen (s : State) (rest : List Event) : (s.taken rest).codeLen = s.codeLen := rfl
@[simp] theorem State.taken_code (s : State) (rest : List Event) : (s.taken rest).code = s.code := rfl
@[simp] theorem State.taken_decCur (s : State) (rest : List Event) : (s.taken rest).decCur = s.decCur := rfl
@[simp] theorem State.taken_eoq (s : State) (rest : List Event) : (s.taken rest).eoq = s.eoq := rfl
@[simp] theorem State.taken_soq (s : State) (rest : List Event) : (s.taken rest).soq = s.soq := rfl
@[simp] theorem State.taken_arg (s : State) (rest : List Event) : (s.taken rest).arg = s.arg := rfl
@[simp] theorem State.taken_result (s : State) (rest : List Event) : (s.taken rest).result = s.result := rfl
@[simp] theorem State.taken_lastErr (s : State) (rest : List Event) : (s.taken rest).lastErr = s.lastErr := rfl
@[simp] theorem State.taken_err (s : State) (rest : List Event) : (s.taken rest).err = s.err := rfl
@[simp] theorem State.taken_busy (s : State) (rest : List Event) : (s.taken rest).busy = s.busy := rfl
@[simp] theorem State.taken_cmdL (s : State) (rest : List Event) : (s.taken rest).cmdL = s.cmdL := rfl
@[simp] theorem State.taken_argL (s : State) (rest : List Event) : (s.taken rest).argL = s.argL := rfl
@[simp] theorem State.taken_schedule (s : State) (rest : List Event) : (s.taken rest).schedule = rest := rfl
@[simp] theorem State.taken_resp (s : State) (rest : List Event) : (s.taken rest).resp = none := rfl

/-! ### withTree -/

@[simp] theorem State.withTree_freq (s : State) (ls : List Node) : (s.withTree ls).freq = s.freq := rfl
@[simp] theorem State.withTree_total (s : State) (ls : List Node) : (s.withTree ls).total = s.total := rfl
@[simp] theorem State.withTree_node (s : State) (ls : List Node) : (s.withTree ls).node = (mergeTree ls).1 := rfl
@[simp] theorem State.withTree_nnode (s : State) (ls : List Node) : (s.withTree ls).nnode = BitVec.ofNat 9 (2 * ls.length - 1) := rfl
@[simp] theorem State.withTree_nleaf (s : State) (ls : List Node) : (s.withTree ls).nleaf = BitVec.ofNat 9 ls.length := rfl
@[simp] theorem State.withTree_root (s : State) (ls : List Node) : (s.withTree ls).root = BitVec.ofNat 9 (mergeTree ls).2 := rfl
@[simp] theorem State.withTree_phase (s : State) (ls : List Node) : (s.withTree ls).phase = .built := rfl
@[simp] theorem State.withTree_codeLen (s : State) (ls : List Node) : (s.withTree ls).codeLen = s.codeLen := rfl
@[simp] theorem State.withTree_code (s : State) (ls : List Node) : (s.withTree ls).code = s.code := rfl
@[simp] theorem State.withTree_decCur (s : State) (ls : List Node) : (s.withTree ls).decCur = BitVec.ofNat 9 (mergeTree ls).2 := rfl
@[simp] theorem State.withTree_eoq (s : State) (ls : List Node) : (s.withTree ls).eoq = s.eoq := rfl
@[simp] theorem State.withTree_soq (s : State) (ls : List Node) : (s.withTree ls).soq = s.soq := rfl
@[simp] theorem State.withTree_arg (s : State) (ls : List Node) : (s.withTree ls).arg = s.arg := rfl
@[simp] theorem State.withTree_result (s : State) (ls : List Node) : (s.withTree ls).result = s.result := rfl
@[simp] theorem State.withTree_lastErr (s : State) (ls : List Node) : (s.withTree ls).lastErr = s.lastErr := rfl
@[simp] theorem State.withTree_err (s : State) (ls : List Node) : (s.withTree ls).err = s.err := rfl
@[simp] theorem State.withTree_busy (s : State) (ls : List Node) : (s.withTree ls).busy = s.busy := rfl
@[simp] theorem State.withTree_cmdL (s : State) (ls : List Node) : (s.withTree ls).cmdL = s.cmdL := rfl
@[simp] theorem State.withTree_argL (s : State) (ls : List Node) : (s.withTree ls).argL = s.argL := rfl
@[simp] theorem State.withTree_schedule (s : State) (ls : List Node) : (s.withTree ls).schedule = s.schedule := rfl
@[simp] theorem State.withTree_resp (s : State) (ls : List Node) : (s.withTree ls).resp = s.resp := rfl

end Sys2Proof.Machine
end

