-- ==== Sys2Proof/Laws/Exec.lean ====
section
/-! SUPPORT. What a completion can do, said once for all commands: `exec` records one outcome, and the body of each command
answers one of the listed cases. -/

namespace Sys2Proof.Machine

/-- The body of a command, once its encoding and phase are accepted. -/
def bodyOf (i : Instr) (s : State) : ExecResult :=
  match i with
  | .nop => nopBody s
  | .clr => clrBody s
  | .count sym => countBody sym s
  | .setf sym => setfBody sym s
  | .build => buildBody s
  | .gen => genBody s
  | .enc sym => encBody sym s
  | .dec k => decBody k s
  | .dend => dendBody s
  | .drst => drstBody s

/-- The outcome of a command in check order: encoding, phase, body (40_command_model.md R128). -/
def outcomeOf (i : Instr) (s : State) : ExecResult :=
  if i.wellFormed then (if allowed i s.phase then bodyOf i s else .fail .sequence) else .fail .illegalCommand

theorem complete_eq (p : Bool) (body : State → ExecResult) (s : State) :
    complete p body s = .next (s.recordOutcome (if p then body s else .fail .sequence)) := rfl

/-- Every command answers a next state, the record of its outcome. -/
theorem exec_eq (i : Instr) (s : State) : exec i s = .next (s.recordOutcome (outcomeOf i s)) := by
  cases i with
  | dec k =>
    by_cases h : legalK k
    · simp [exec, execDec, outcomeOf, Instr.wellFormed, h, complete, bodyOf]
    · simp [exec, execDec, outcomeOf, Instr.wellFormed, h, completeIllegal, State.recordOutcome]
  | _ => rfl

@[simp] theorem recordOutcome_ok (s s' : State) (r : Option Word) : s.recordOutcome (.ok s' r) = s'.completeOk r := rfl

@[simp] theorem recordOutcome_fail (s : State) (e : CmdError) : s.recordOutcome (.fail e) = s.completeFail e := rfl

/-- The next state of a command is the record of its outcome. -/
theorem exec_next {i : Instr} {s t : State} (h : exec i s = .next t) : t = s.recordOutcome (outcomeOf i s) := by
  rw [exec_eq] at h
  exact (Host.Outcome.next.inj h).symm

/-- A command succeeds only well-formed, in one of its phases, by its body. -/
theorem outcomeOf_ok {i : Instr} {s s' : State} {r : Option Word} (h : outcomeOf i s = .ok s' r) :
    i.wellFormed = true ∧ allowed i s.phase = true ∧ bodyOf i s = .ok s' r := by
  unfold outcomeOf at h
  split at h
  · split at h
    · exact ⟨‹_›, ‹_›, h⟩
    · cases h
  · cases h

/-- In one of its phases a well-formed command does what its body says. -/
theorem outcomeOf_allowed {i : Instr} {s : State} (hw : i.wellFormed = true) (hp : allowed i s.phase = true) :
    outcomeOf i s = bodyOf i s := by simp [outcomeOf, hw, hp]

/-- What a completion can leave: the record of an error over the old state, or of a success over the state its body
gives. -/
theorem exec_cases {i : Instr} {s t : State} (h : exec i s = .next t) :
    (∃ e, outcomeOf i s = .fail e ∧ t = s.completeFail e) ∨
    (∃ s' r, outcomeOf i s = .ok s' r ∧ i.wellFormed = true ∧ allowed i s.phase = true ∧ bodyOf i s = .ok s' r ∧
      t = s'.completeOk r) := by
  have ht := exec_next h
  cases ho : outcomeOf i s with
  | fail e => exact .inl ⟨e, rfl, by rw [ht, ho]; rfl⟩
  | ok s' r =>
    obtain ⟨hw, hp, hb⟩ := outcomeOf_ok ho
    exact .inr ⟨s', r, rfl, hw, hp, hb, by rw [ht, ho]; rfl⟩

/-! ### What each body answers -/

theorem countBody_cases (sym : Symbol) (s : State) :
    (s.total.toNat = 0xFFFFFFFF ∧ countBody sym s = .fail .countOverflow) ∨
    (s.total.toNat ≠ 0xFFFFFFFF ∧ countBody sym s =
      .ok { s with freq := s.freq.put sym (s.freq.at sym + 1), total := s.total + 1 } (some (s.freq.at sym + 1))) := by
  by_cases h : s.total.toNat = 0xFFFFFFFF
  · exact .inl ⟨h, by simp [countBody, Config.freqMax, h]⟩
  · exact .inr ⟨h, by simp [countBody, Config.freqMax, h]⟩

theorem setfBody_cases (sym : Symbol) (s : State) :
    (0xFFFFFFFF < s.setfTotal sym ∧ setfBody sym s = .fail .countOverflow) ∨
    (s.setfTotal sym ≤ 0xFFFFFFFF ∧ setfBody sym s =
      .ok { s with freq := s.freq.put sym s.argL, total := BitVec.ofNat 32 (s.setfTotal sym) }
        (some (BitVec.ofNat 32 (s.setfTotal sym)))) := by
  by_cases h : 0xFFFFFFFF < s.setfTotal sym
  · exact .inl ⟨h, by simp [setfBody, Config.freqMax, h]⟩
  · exact .inr ⟨by omega, by simp [setfBody, Config.freqMax, h, State.countOperand]⟩

theorem buildBody_cases (s : State) :
    ((createLeaves s.freq).length = 0 ∧ buildBody s = .fail .invalidInput) ∨
    (1 ≤ (createLeaves s.freq).length ∧ buildBody s =
      .ok (s.withTree (createLeaves s.freq)) (some ((s.withTree (createLeaves s.freq)).root.zeroExtend 32))) := by
  by_cases h : (createLeaves s.freq).length = 0
  · exact .inl ⟨h, by simp [buildBody, h]⟩
  · exact .inr ⟨by omega, by simp [buildBody, h]⟩

theorem encBody_cases (sym : Symbol) (s : State) :
    (s.codeLen.at sym = 0#8 ∧ encBody sym s = .fail .unknownSymbol) ∨
    (s.codeLen.at sym ≠ 0#8 ∧ s.eoqFree < (s.codeLen.at sym).toNat ∧ encBody sym s = .fail .queueFull) ∨
    (s.codeLen.at sym ≠ 0#8 ∧ (s.codeLen.at sym).toNat ≤ s.eoqFree ∧ encBody sym s =
      .ok { s with eoq := s.eoq ++ s.codeBits sym } (some ((s.codeLen.at sym).zeroExtend 32))) := by
  by_cases h : s.codeLen.at sym = 0#8
  · exact .inl ⟨h, by simp [encBody, h]⟩
  · by_cases h' : s.eoqFree < (s.codeLen.at sym).toNat
    · exact .inr (.inl ⟨h, h', by simp only [encBody, if_neg h, if_pos h']⟩)
    · exact .inr (.inr ⟨h, by omega, by simp only [encBody, if_neg h, if_neg h']⟩)

theorem decBody_cases (k : BitVec 6) (s : State) :
    (s.soqFree < k.toNat ∧ decBody k s = .fail .queueFull) ∨
    (k.toNat ≤ s.soqFree ∧ decFeed s.node s.root s.decCur (s.bitsOperand k) = none ∧
      decBody k s = .fail .malformedStream) ∨
    (k.toNat ≤ s.soqFree ∧ ∃ cur out, decFeed s.node s.root s.decCur (s.bitsOperand k) = some (cur, out) ∧
      decBody k s = .ok { s with decCur := cur, soq := s.soq ++ out } (some (BitVec.ofNat 32 out.length))) := by
  by_cases h : s.soqFree < k.toNat
  · exact .inl ⟨h, by simp [decBody, h]⟩
  · cases hf : decFeed s.node s.root s.decCur (s.bitsOperand k) with
    | none => exact .inr (.inl ⟨by omega, rfl, by simp [decBody, h, hf]⟩)
    | some p => exact .inr (.inr ⟨by omega, p.1, p.2, rfl, by simp [decBody, h, hf]⟩)

theorem dendBody_cases (s : State) :
    (s.decCur ≠ s.root ∧ dendBody s = .fail .malformedStream) ∨ (s.decCur = s.root ∧ dendBody s = .ok s (some 0)) := by
  by_cases h : s.decCur = s.root
  · exact .inr ⟨h, by simp [dendBody, h]⟩
  · exact .inl ⟨h, by simp [dendBody, h]⟩

/-- No body touches ARG, the latches, the error record, RESULT, BUSY, the schedule or the bus answer. -/
theorem body_frame {i : Instr} {s s' : State} {r : Option Word} (h : bodyOf i s = .ok s' r) :
    s'.arg = s.arg ∧ s'.cmdL = s.cmdL ∧ s'.argL = s.argL ∧ s'.schedule = s.schedule ∧ s'.resp = s.resp ∧
    s'.err = s.err ∧ s'.result = s.result ∧ s'.lastErr = s.lastErr ∧ s'.busy = s.busy := by
  cases i with
  | nop => cases h; simp
  | clr => cases h; simp
  | count sym => rcases countBody_cases sym s with ⟨_, e⟩ | ⟨_, e⟩ <;> (simp only [bodyOf, e] at h; cases h); simp
  | setf sym => rcases setfBody_cases sym s with ⟨_, e⟩ | ⟨_, e⟩ <;> (simp only [bodyOf, e] at h; cases h); simp
  | build => rcases buildBody_cases s with ⟨_, e⟩ | ⟨_, e⟩ <;> (simp only [bodyOf, e] at h; cases h); simp
  | gen => cases h; simp
  | enc sym => rcases encBody_cases sym s with ⟨_, e⟩ | ⟨_, _, e⟩ | ⟨_, _, e⟩ <;> (simp only [bodyOf, e] at h; cases h); simp
  | dec k => rcases decBody_cases k s with ⟨_, e⟩ | ⟨_, _, e⟩ | ⟨_, c, o, _, e⟩ <;> (simp only [bodyOf, e] at h; cases h); simp
  | dend => rcases dendBody_cases s with ⟨_, e⟩ | ⟨_, e⟩ <;> (simp only [bodyOf, e] at h; cases h); simp
  | drst => cases h; simp

/-- A state with another schedule and another bus answer. -/
def State.withOutside (s : State) (sch : List Event) (rs : Option Response) : State :=
  { s with schedule := sch, resp := rs }

/-- The outcome of a command does not depend on the schedule or on the bus answer. -/
theorem outcomeOf_outside (i : Instr) (s : State) (sch : List Event) (rs : Option Response) :
    outcomeOf i (s.withOutside sch rs) =
      match outcomeOf i s with
      | .ok s' r => .ok (s'.withOutside sch rs) r
      | .fail e => .fail e := by
  unfold outcomeOf
  split
  · show (if allowed i s.phase then _ else _) = _
    split
    · cases i with
      | nop => rfl
      | clr => rfl
      | count sym =>
        simp only [bodyOf, countBody]
        show (if s.total.toNat = Config.freqMax then _ else _) = _
        split <;> rfl
      | setf sym =>
        simp only [bodyOf, setfBody]
        show (if Config.freqMax < s.setfTotal sym then _ else _) = _
        split <;> rfl
      | build =>
        simp only [bodyOf, buildBody]
        show (if (createLeaves s.freq).length = 0 then _ else _) = _
        split <;> rfl
      | gen => rfl
      | enc sym =>
        simp only [bodyOf, encBody]
        show (if s.codeLen.at sym = 0#8 then _ else if s.eoqFree < (s.codeLen.at sym).toNat then _ else _) = _
        split
        · rfl
        · split <;> rfl
      | dec k =>
        simp only [bodyOf, decBody]
        show (if s.soqFree < k.toNat then _ else _) = _
        split
        · rfl
        · show (match decFeed s.node s.root s.decCur (s.bitsOperand k) with | none => _ | some (cur, out) => _) = _
          cases decFeed s.node s.root s.decCur (s.bitsOperand k) <;> rfl
      | dend =>
        simp only [bodyOf, dendBody]
        show (if s.decCur ≠ s.root then _ else _) = _
        split <;> rfl
      | drst => rfl
    · rfl
  · rfl

/-- A completion commutes with a change of the schedule and of the bus answer. -/
theorem recordOutcome_outside (i : Instr) (s : State) (sch : List Event) (rs : Option Response) :
    (s.withOutside sch rs).recordOutcome (outcomeOf i (s.withOutside sch rs)) =
      (s.recordOutcome (outcomeOf i s)).withOutside sch rs := by
  rw [outcomeOf_outside]
  cases outcomeOf i s <;> rfl

/-- A completion ends with BUSY = 0 and leaves the schedule. -/
theorem recordOutcome_keeps (i : Instr) (s : State) :
    (s.recordOutcome (outcomeOf i s)).busy = false ∧ (s.recordOutcome (outcomeOf i s)).schedule = s.schedule := by
  cases h : outcomeOf i s with
  | fail e => simp
  | ok s' r =>
    have := body_frame (outcomeOf_ok h).2.2
    simp [this]

end Sys2Proof.Machine
end

