-- ==== Sys2Proof/Laws/Frequency.lean ====
section
/-! SUPPORT. The sum of the counts (10_state.md R22, R23): what one count adds to it, and what a write to one count does. -/

namespace Sys2Proof.Machine

theorem sum_map_replace {α : Type} [DecidableEq α] (f g : α → Nat) (x : α) (l : List α) (hl : l.Nodup) (hx : x ∈ l)
    (hfg : ∀ y, y ≠ x → g y = f y) : (l.map g).sum + f x = (l.map f).sum + g x := by
  induction l with
  | nil => cases hx
  | cons y l ih =>
    rw [List.nodup_cons] at hl
    simp only [List.map_cons, List.sum_cons]
    by_cases hy : y = x
    · subst hy
      have : l.map g = l.map f := List.map_congr_left (fun z hz => hfg z (fun e => hl.1 (e ▸ hz)))
      rw [this]
      omega
    · have := ih hl.2 ((List.mem_cons.1 hx).resolve_left (Ne.symm hy))
      rw [hfg y hy]
      omega

/-- A write to one count changes the sum by the difference. -/
theorem freqSum_put (freq : SymTable Word) (sym : Symbol) (v : Word) :
    freqSum (freq.put sym v) + (freq.at sym).toNat = freqSum freq + v.toNat := by
  have := sum_map_replace (fun y => (freq.at y).toNat) (fun y => ((freq.put sym v).at y).toNat) sym allSymbols
    nodup_allSymbols (mem_allSymbols sym) (fun y hy => by rw [SymTable.at_put_other _ _ hy])
  simpa [freqSum] using this

/-- One count is at most the sum. -/
theorem at_le_freqSum (freq : SymTable Word) (sym : Symbol) : (freq.at sym).toNat ≤ freqSum freq :=
  List.le_sum_of_mem (List.mem_map.2 ⟨sym, mem_allSymbols sym, rfl⟩)

theorem freqSum_all_zero : freqSum (SymTable.all 0#32) = 0 := by
  simp [freqSum]

end Sys2Proof.Machine
end

