-- ==== Sys2Proof/Laws/Inv.lean ====
section
/-! SUPPORT. The invariant reads only the tables, the tree, the phase, the cursor and the queues; a host transaction moves
none of these but for the pops. -/

namespace Sys2Proof.Machine

/-- A state that agrees with one that meets the invariant on what the invariant reads, with queues within their capacities,
meets it. -/
theorem Inv.congr {s t : State} (h : Inv s) (freq : t.freq = s.freq) (total : t.total = s.total) (node : t.node = s.node)
    (nnode : t.nnode = s.nnode) (nleaf : t.nleaf = s.nleaf) (root : t.root = s.root) (phase : t.phase = s.phase)
    (codeLen : t.codeLen = s.codeLen) (code : t.code = s.code) (decCur : t.decCur = s.decCur)
    (eoq : t.eoq.length ≤ 512) (soq : t.soq.length ≤ 32) : Inv t := by
  have tree : TreeOk s → TreeOk t := fun h => by
    constructor <;> simp only [freq, total, node, nnode, nleaf, root]
    exacts [h.1, h.2, h.3, h.4, h.5, h.6, h.7, h.8, h.9]
  have codes : CodeOk s → CodeOk t := fun h => by
    constructor <;> simp only [freq, node, nleaf, root, codeLen, code]
    exacts [h.1, h.2, h.3, h.4]
  constructor <;> (try simp only [freq, total, node, nnode, nleaf, root, phase, codeLen, code, decCur])
  exacts [h.1, h.2, fun p => tree (h.3 p), h.4, h.5, fun p => codes (h.6 p), h.7, eoq, soq]

theorem Inv.taken {s : State} (h : Inv s) (rest : List Event) : Inv (s.taken rest) :=
  h.congr rfl rfl rfl rfl rfl rfl rfl rfl rfl rfl h.eoq_le h.soq_le

theorem Inv.completeFail {s : State} (h : Inv s) (e : CmdError) : Inv (s.completeFail e) :=
  h.congr rfl rfl rfl rfl rfl rfl rfl rfl rfl rfl h.eoq_le h.soq_le

theorem Inv.completeOk {s : State} (h : Inv s) (r : Option Word) : Inv (s.completeOk r) :=
  h.congr rfl rfl rfl rfl rfl rfl rfl rfl rfl rfl h.eoq_le h.soq_le

/-- No host transaction touches what the invariant reads but for the pops of the queues. -/
theorem Inv.transact {s : State} (h : Inv s) (x : Txn) : Inv (transact x s) := by
  have plain : ∀ t : State, t.freq = s.freq → t.total = s.total → t.node = s.node → t.nnode = s.nnode →
      t.nleaf = s.nleaf → t.root = s.root → t.phase = s.phase → t.codeLen = s.codeLen → t.code = s.code →
      t.decCur = s.decCur → t.eoq.length ≤ s.eoq.length → t.soq.length ≤ s.soq.length → Inv t :=
    fun t e1 e2 e3 e4 e5 e6 e7 e8 e9 e10 e11 e12 =>
      h.congr e1 e2 e3 e4 e5 e6 e7 e8 e9 e10 (e11.trans h.eoq_le) (e12.trans h.soq_le)
  cases x with
  | read a n =>
    simp only [Machine.transact, memRead]
    split
    · apply plain <;> simp
    · rename_i t _
      cases t <;> (apply plain <;> simp [State.afterRead, State.eoqPopped, State.soqPopped, State.respond])
  | write a n v =>
    simp only [Machine.transact, memWrite]
    split
    · apply plain <;> simp
    · rename_i t _
      cases t <;> (apply plain <;> (simp [State.afterWrite, State.issue, State.respond]; try (split <;> simp)))

end Sys2Proof.Machine
end

