-- ==== Sys2Proof/Laws/Ops.lean ====
section
/-! SUPPORT. The value of a bit list, bit by bit (20_memory.md R79, 10_state.md R38). -/

namespace Sys2Proof.Machine

theorem bitsLE_lt (bits : List Bool) : bitsLE bits < 2 ^ bits.length := by
  induction bits with
  | nil => simp [bitsLE]
  | cons b rest ih =>
    have := Bool.toNat_lt b
    simp only [bitsLE, List.length_cons, Nat.pow_succ]
    omega

/-- Bit j of the value is element j of the list. -/
theorem bitsLE_testBit (bits : List Bool) (j : Nat) : (bitsLE bits).testBit j = (bits[j]?).getD false := by
  induction bits generalizing j with
  | nil => simp [bitsLE]
  | cons b rest ih =>
    cases j with
    | zero => cases b <;> simp [bitsLE, Nat.testBit_zero]
    | succ j =>
      have : (b.toNat + 2 * bitsLE rest) / 2 = bitsLE rest := by
        have := Bool.toNat_lt b
        omega
      simp [bitsLE, Nat.testBit_succ, this, ih]

end Sys2Proof.Machine
end

