-- ==== Sys2Proof/Laws/PerInstr.lean ====
section
/-! SUPPORT. One lemma per command: the word of a command is its opcode in bits 31:24 and its operand below, nothing else
(30_encoding.md R100 to R105). -/

namespace Sys2Proof.Laws

/-- The opcode column of the opcode map (30_encoding.md R105). -/
def opcodeNumber (i : Instr) : Nat :=
  match i with
  | .nop => 0x00
  | .clr => 0x01
  | .count _ => 0x02
  | .setf _ => 0x03
  | .build => 0x04
  | .gen => 0x05
  | .enc _ => 0x06
  | .dec _ => 0x07
  | .dend => 0x08
  | .drst => 0x09

/-- The value of the operand a command word carries, 0 for format N (30_encoding.md R104). -/
def operandNumber (i : Instr) : Nat :=
  match i with
  | .nop => 0
  | .clr => 0
  | .count sym => sym.toNat
  | .setf sym => sym.toNat
  | .build => 0
  | .gen => 0
  | .enc sym => sym.toNat
  | .dec k => k.toNat
  | .dend => 0
  | .drst => 0

namespace EncodedNumber

/-- The word of a command as a number. -/
def Statement (i : Instr) : Prop := (encode i).toNat = opcodeNumber i * 2 ^ 24 + operandNumber i

theorem nop : Statement .nop := encodeN_toNat _
theorem clr : Statement .clr := encodeN_toNat _
theorem count (sym : Symbol) : Statement (.count sym) := encodeS_toNat _ sym
theorem setf (sym : Symbol) : Statement (.setf sym) := encodeS_toNat _ sym
theorem build : Statement .build := encodeN_toNat _
theorem gen : Statement .gen := encodeN_toNat _
theorem enc (sym : Symbol) : Statement (.enc sym) := encodeS_toNat _ sym
theorem dec (k : BitVec 6) : Statement (.dec k) := encodeK_toNat _ k
theorem dend : Statement .dend := encodeN_toNat _
theorem drst : Statement .drst := encodeN_toNat _

end EncodedNumber

end Sys2Proof.Laws
end

