-- ==== Sys2Proof/Laws/Step.lean ====
section
/-! SUPPORT. What one step can do, said once per kind of event; what a legal and an illegal transaction does. -/

namespace Sys2Proof.Machine

theorem step_nil {s : State} (h : s.schedule = []) : step s = engineTurn (s.taken []) := by simp only [step, h]

theorem step_engine {s : State} {rest : List Event} (h : s.schedule = .engine :: rest) :
    step s = engineTurn (s.taken rest) := by simp only [step, h, takeEvent]

theorem step_rst {s : State} {a : Option Txn} {rest : List Event} (h : s.schedule = .rst a :: rest) :
    step s = .next (s.taken rest).resetCycle := by simp only [step, h, takeEvent]

theorem step_host {s : State} {x : Txn} {rest : List Event} (h : s.schedule = .host x :: rest) :
    step s = .next (transact x (s.taken rest)) := by simp only [step, h, takeEvent]

/-- A read's value does not depend on the schedule or on the bus answer. -/
@[simp] theorem readWord_taken (s : State) (rest : List Event) (t : Target) :
    (s.taken rest).readWord t = s.readWord t := by cases t <;> rfl

/-- A legal read answers its target's word and changes what that read pops. -/
theorem step_read {s : State} {a : Addr} {n : Nat} {rest : List Event} {t : Target}
    (h : s.schedule = .host (.read a n) :: rest) (ht : accessTarget a n = some t) :
    step s = .next (((s.taken rest).afterRead t).respond (some (.read (s.readWord t) false))) := by
  rw [step_host h]
  simp only [transact, memRead, ht, readWord_taken]

/-- A legal write does what its target does with the value. -/
theorem step_write {s : State} {a : Addr} {n : Nat} {v : Word} {rest : List Event} {t : Target}
    (h : s.schedule = .host (.write a n v) :: rest) (ht : accessTarget a n = some t) :
    step s = .next (((s.taken rest).afterWrite t v).respond (some (.write false))) := by
  rw [step_host h]
  simp only [transact, memWrite, ht]

/-- An illegal read answers 0 with an error and records ACCESS. -/
theorem step_read_illegal {s : State} {a : Addr} {n : Nat} {rest : List Event}
    (h : s.schedule = .host (.read a n) :: rest) (ht : accessTarget a n = none) :
    step s = .next (((s.taken rest).recordHostError .access).respond (some (.read 0 true))) := by
  rw [step_host h]
  simp only [transact, memRead, ht]

/-- An illegal write answers an error and records ACCESS. -/
theorem step_write_illegal {s : State} {a : Addr} {n : Nat} {v : Word} {rest : List Event}
    (h : s.schedule = .host (.write a n v) :: rest) (ht : accessTarget a n = none) :
    step s = .next (((s.taken rest).recordHostError .access).respond (some (.write true))) := by
  rw [step_host h]
  simp only [transact, memWrite, ht]

/-- What an engine's turn answers: nothing changes while idle; otherwise the record of one outcome. -/
theorem engineTurn_cases (s : State) :
    (s.busy = false ∧ engineTurn s = .next s) ∨
    (s.busy = true ∧ decode s.cmdL = none ∧ engineTurn s = .next (s.completeFail .illegalCommand)) ∨
    (s.busy = true ∧ ∃ i, decode s.cmdL = some i ∧ engineTurn s = .next (s.recordOutcome (outcomeOf i s))) := by
  cases hb : s.busy with
  | false => exact .inl ⟨rfl, by simp [engineTurn, hb]⟩
  | true =>
    cases hd : decode s.cmdL with
    | none => exact .inr (.inl ⟨rfl, rfl, by simp [engineTurn, hb, hd, completeIllegal]⟩)
    | some i => exact .inr (.inr ⟨rfl, i, rfl, by simp [engineTurn, hb, hd, exec_eq]⟩)

/-- Every turn of the engine answers a next state with nothing in flight. -/
theorem engineTurn_next (s : State) : 
    ∃ t, engineTurn s = .next t ∧ t.busy = false ∧ t.schedule = s.schedule := by
  rcases engineTurn_cases s with ⟨hb, e⟩ | ⟨hb, _, e⟩ | ⟨hb, i, _, e⟩
  · exact ⟨_, e, hb, rfl⟩
  · exact ⟨_, e, rfl, rfl⟩
  · exact ⟨_, e, recordOutcome_keeps i s⟩

/-- A run takes its first step and goes on from there. -/
theorem run_succ {s t : State} (n : Nat) (h : step s = .next t) :
    Host.Core.run Sys2Proof.core (n + 1) s = Host.Core.run Sys2Proof.core n t := by
  have h' : Sys2Proof.core.step s = .next t := h
  simp only [Host.Core.run, h']

/-- Where an access is illegal (20_memory.md R73, R76). -/
theorem accessTarget_eq_none_iff (a : Addr) (n : Nat) : accessTarget a n = none ↔
    (n ≠ 4 ∨ a.toNat % 4 ≠ 0 ∨ (0x040 ≤ a.toNat ∧ a.toNat < 0x400) ∨ (0xC00 ≤ a.toNat ∧ a.toNat < 0x1000)) := by
  unfold accessTarget
  split
  · rename_i h
    unfold wordTarget
    split
    · unfold registerAt
      split <;> simp only [reduceCtorEq, false_iff, true_iff, imp_false] at * <;> omega
    · split
      · simp; omega
      · split
        · simp; omega
        · split
          · simp; omega
          · split <;> simp <;> omega
  · simp; omega

/-! ### The windows by their addresses (20_memory.md R72) -/

theorem accessTarget_freqWin {a : Addr} {sym : Symbol} (h : a.toNat = 0x400 + 4 * sym.toNat) :
    accessTarget a 4 = some (.freqWin sym) := by
  have hs := sym.isLt
  have e : (a.toNat - 0x400) / 4 = sym.toNat := by omega
  rw [accessTarget, if_pos ⟨rfl, by omega⟩, wordTarget, if_neg (by omega), if_pos (by omega), e, BitVec.ofNat_toNat,
    BitVec.setWidth_eq]

theorem accessTarget_codeLenWin {a : Addr} {sym : Symbol} (h : a.toNat = 0x800 + 4 * sym.toNat) :
    accessTarget a 4 = some (.codeLenWin sym) := by
  have hs := sym.isLt
  have e : (a.toNat - 0x800) / 4 = sym.toNat := by omega
  rw [accessTarget, if_pos ⟨rfl, by omega⟩, wordTarget, if_neg (by omega), if_neg (by omega), if_pos (by omega), e,
    BitVec.ofNat_toNat, BitVec.setWidth_eq]

theorem accessTarget_nodeWin0 {a : Addr} {i : NodeIx} (h : a.toNat = 0x1000 + 8 * i.toNat) :
    accessTarget a 4 = some (.nodeWin0 i) := by
  have hi := i.isLt
  have e : (a.toNat - 0x1000) / 8 = i.toNat := by omega
  have e0 : (a.toNat - 0x1000) % 8 = 0 := by omega
  rw [accessTarget, if_pos ⟨rfl, by omega⟩, wordTarget, if_neg (by omega), if_neg (by omega), if_neg (by omega),
    if_neg (by omega), if_pos (by omega)]
  simp only [if_pos e0, e, BitVec.ofNat_toNat, BitVec.setWidth_eq]

theorem accessTarget_nodeWin1 {a : Addr} {i : NodeIx} (h : a.toNat = 0x1004 + 8 * i.toNat) :
    accessTarget a 4 = some (.nodeWin1 i) := by
  have hi := i.isLt
  have e : (a.toNat - 0x1000) / 8 = i.toNat := by omega
  have e0 : ¬ (a.toNat - 0x1000) % 8 = 0 := by omega
  rw [accessTarget, if_pos ⟨rfl, by omega⟩, wordTarget, if_neg (by omega), if_neg (by omega), if_neg (by omega),
    if_neg (by omega), if_pos (by omega)]
  simp only [if_neg e0, e, BitVec.ofNat_toNat, BitVec.setWidth_eq]

theorem accessTarget_codeWin {a : Addr} {sym : Symbol} {w : BitVec 3} (h : a.toNat = 0x2000 + 32 * sym.toNat + 4 * w.toNat) :
    accessTarget a 4 = some (.codeWin sym w) := by
  have hs := sym.isLt
  have hw := w.isLt
  have e : (a.toNat - 0x2000) / 32 = sym.toNat := by omega
  have e' : (a.toNat - 0x2000) % 32 / 4 = w.toNat := by omega
  rw [accessTarget, if_pos ⟨rfl, by omega⟩, wordTarget, if_neg (by omega), if_neg (by omega), if_neg (by omega),
    if_neg (by omega), if_neg (by omega), e, e', BitVec.ofNat_toNat, BitVec.setWidth_eq, BitVec.ofNat_toNat,
    BitVec.setWidth_eq]

end Sys2Proof.Machine
end

