-- ==== Sys2Proof/Tests/Slice0.lean ====
section
/-! SUPPORT. The model's own tests, with expected values from 95_test_vectors.md and the rules named, and the witnesses: for
every statement with hypotheses, a state and operands that meet them together. -/

namespace Sys2Proof.Tests

open Sys2Proof Sys2Proof.Machine

set_option Elab.async false

/-! ## Helpers -/

/-- The state a command leaves. -/
def after (i : Instr) (s : State) : State :=
  match exec i s with
  | .next t => t
  | .fault _ => s
  | .refused _ => s

/-- The state a step leaves. -/
def stepped (s : State) : State :=
  match step s with
  | .next t => t
  | .fault _ => s
  | .refused _ => s

/-- A frequency table from its nonzero entries. -/
def counts (entries : List (Symbol × Word)) : SymTable Word :=
  entries.foldl (fun t e => t.put e.1 e.2) (SymTable.all 0)

/-- A counting state. -/
def counting (entries : List (Symbol × Word)) (total : Word) : State :=
  { State.reset with freq := counts entries, total := total }

/-- A built state over a tree. -/
def built (entries : List (Symbol × Word)) (total : Word) (nodes : List Node) (nleaf : BitVec 9) (root : NodeIx) : State :=
  { State.reset with
    freq := counts entries, total := total, node := nodes, nnode := BitVec.ofNat 9 nodes.length, nleaf := nleaf
    root := root, decCur := root, phase := .built }

/-- A coded state: a built one with its code table. -/
def coded (s : State) (codes : List (Symbol × List Bool)) : State :=
  { s with
    phase := .coded
    code := codes.foldl (fun t e => t.put e.1 e.2) (SymTable.all [])
    codeLen := codes.foldl (fun t e => t.put e.1 (BitVec.ofNat 8 e.2.length)) (SymTable.all 0) }

/-- Counts of "aab" (L1-1). -/
def aabCounting : State := counting [(0x61#8, 2#32), (0x62#8, 1#32)] 3#32

/-- The tree of "aab" (V-BUILD-1). -/
def aabBuilt : State :=
  built [(0x61#8, 2#32), (0x62#8, 1#32)] 3#32
    [.leaf 0x61#8 2#32, .leaf 0x62#8 1#32, .internal 3#32 1#9 0#9] 2#9 2#9

/-- The codes of "aab" (V-GEN-1). -/
def aabCoded : State := coded aabBuilt [(0x61#8, [true]), (0x62#8, [false])]

/-- The tree of "aaaa" (V-BUILD-2). -/
def aaaaBuilt : State := built [(0x61#8, 4#32)] 4#32 [.leaf 0x61#8 4#32] 1#9 0#9

/-- The code of "aaaa" (V-GEN-2). -/
def aaaaCoded : State := coded aaaaBuilt [(0x61#8, [false])]

/-- The tree of "abcd" (V-BUILD-4). -/
def abcdBuilt : State :=
  built [(0x61#8, 1#32), (0x62#8, 1#32), (0x63#8, 1#32), (0x64#8, 1#32)] 4#32
    [.leaf 0x61#8 1#32, .leaf 0x62#8 1#32, .leaf 0x63#8 1#32, .leaf 0x64#8 1#32,
      .internal 2#32 0#9 1#9, .internal 2#32 2#9 3#9, .internal 4#32 4#9 5#9] 4#9 6#9

/-- The tree of "abracadabra" (V-BUILD-5). -/
def abraBuilt : State :=
  built [(0x61#8, 5#32), (0x62#8, 2#32), (0x63#8, 1#32), (0x64#8, 1#32), (0x72#8, 2#32)] 11#32
    [.leaf 0x61#8 5#32, .leaf 0x62#8 2#32, .leaf 0x63#8 1#32, .leaf 0x64#8 1#32, .leaf 0x72#8 2#32,
      .internal 2#32 2#9 3#9, .internal 4#32 1#9 4#9, .internal 6#32 5#9 6#9, .internal 11#32 0#9 7#9] 5#9 8#9

/-! ## Well-formedness and encoding -/

/-- K = 0 and K = 33 are refused (30_encoding.md R106 (c)). -/
theorem test_wellFormed_refuses_k_out_of_range :
    (Instr.dec 0#6).wellFormed = false ∧ (Instr.dec 33#6).wellFormed = false ∧ (Instr.dec 63#6).wellFormed = false ∧
    (Instr.dec 1#6).wellFormed = true ∧ (Instr.dec 32#6).wellFormed = true := by decide

/-- The bit patterns of 30_encoding.md R105. -/
theorem test_decode_nop : decode 0b00000000000000000000000000000000#32 = some .nop := by decide
theorem test_decode_clr : decode 0b00000001000000000000000000000000#32 = some .clr := by decide
theorem test_decode_count : decode 0b00000010000000000000000001100001#32 = some (.count 0x61#8) := by decide
theorem test_decode_setf : decode 0b00000011000000000000000011111111#32 = some (.setf 0xFF#8) := by decide
theorem test_decode_build : decode 0b00000100000000000000000000000000#32 = some .build := by decide
theorem test_decode_gen : decode 0b00000101000000000000000000000000#32 = some .gen := by decide
theorem test_decode_enc : decode 0b00000110000000000000000010000001#32 = some (.enc 0x81#8) := by decide
theorem test_decode_dec : decode 0b00000111000000000000000000010111#32 = some (.dec 23#6) := by decide
theorem test_decode_dend : decode 0b00001000000000000000000000000000#32 = some .dend := by decide
theorem test_decode_drst : decode 0b00001001000000000000000000000000#32 = some .drst := by decide

/-- 30_encoding.md R107's examples and V-ILL-1 to V-ILL-6. -/
theorem test_decode_illegal :
    [0x02000161#32, 0x07000000#32, 0x07000021#32, 0x07000040#32, 0x0A000000#32, 0xFF000000#32, 0x00000001#32].map decode =
      [none, none, none, none, none, none, none] := by decide

/-- No two rows of the opcode map overlap. -/
theorem test_opcodeMap_disjoint :
    opcodeMap.Pairwise (fun r q => (r.pattern &&& q.mask) ≠ (q.pattern &&& r.mask)) := by decide

/-- The words of a table row, with its operand bits 0: COUNT 0 decodes, DEC 0 is illegal (30_encoding.md R106 (c)). -/
theorem test_decodeTableWord : decodeTableWord 32 0x02000000 = some (.count 0#8) ∧ decodeTableWord 32 0x07000000 = none ∧
    decodeTableWord 32 0x07000020 = some (.dec 32#6) := by decide

/-- 30_encoding.md R108: case, quoted characters, both number forms, and the refused operands. -/
theorem test_assemble : assemble "COUNT 'a'".toList = some 0x02000061#32 ∧ assemble " enc 0x7A ".toList = some 0x0600007A#32 ∧
    assemble "Dec 23".toList = some 0x07000017#32 ∧ assemble "NOP".toList = some 0#32 := by decide +kernel
theorem test_assemble_refuses : assemble "COUNT 256".toList = none ∧ assemble "DEC 0".toList = none ∧
    assemble "DEC 33".toList = none ∧ assemble "BUILD 1".toList = none := by decide +kernel

/-! ## Commands -/

/-- V-CTL-1. -/
theorem test_nop : let s := { State.reset with lastErr := some .sequence, err := 0b000010000#9, result := 7 }
    (after .nop s).lastErr = none ∧ (after .nop s).result = 7#32 ∧ errWord (after .nop s).err = 0x20#32 := by decide +kernel

/-- V-CTL-2, from a state with a tree, output and an error record. -/
theorem test_clr : let t := after .clr { aabCoded with eoq := [true], soq := [0x61#8], arg := 9, err := 1#9, result := 4 }
    t.statusWord = 0x8#32 ∧ t.total = 0#32 ∧ t.nnode = 0#9 ∧ t.eoq = [] ∧ t.soq = [] ∧ t.result = 0#32 ∧ t.arg = 9#32 ∧
    t.err = 1#9 := by decide +kernel

/-- V-CNT-1 and V-CNT-2. -/
theorem test_count : (after (.count 0x61#8) State.reset).freq.at 0x61#8 = 1#32 ∧
    (after (.count 0x61#8) State.reset).total = 1#32 ∧ (after (.count 0x61#8) State.reset).statusWord = 0x8#32 ∧
    (after (.count 0x61#8) (counting [(0x61#8, 1#32)] 1#32)).result = 2#32 := by decide +kernel

/-- V-SETF-2 and V-SETF-3: no wrap. -/
theorem test_count_overflow : let t := after (.count 0x62#8) (counting [(0x61#8, 0xFFFFFFFF#32)] 0xFFFFFFFF#32)
    t.statusWord = 0x68#32 ∧ errWord t.err = 0x40#32 ∧ t.total = 0xFFFFFFFF#32 ∧ t.freq.at 0x62#8 = 0#32 := by decide +kernel

/-- V-SETF-1 and V-SETF-7. -/
theorem test_setf : (after (.setf 0x61#8) { State.reset with argL := 0xFFFFFFFF }).total = 0xFFFFFFFF#32 ∧
    (after (.setf 0x61#8) (counting [(0x61#8, 0xFFFFFFFE#32), (0x62#8, 1#32)] 0xFFFFFFFF#32)).result = 1#32 := by
  decide +kernel

/-- V-SETF-4. -/
theorem test_setf_overflow :
    let t := after (.setf 0x62#8) { counting [(0x61#8, 0xFFFFFFFF#32)] 0xFFFFFFFF#32 with argL := 1 }
    t.lastErr = some .countOverflow ∧ t.freq.at 0x62#8 = 0#32 ∧ t.total = 0xFFFFFFFF#32 := by decide +kernel

/-- V-BUILD-1, with its NODE_WIN words. -/
theorem test_build : let t := after .build aabCounting
    t.node = aabBuilt.node ∧ t.statusWord = 0xA#32 ∧ t.result = 2#32 ∧ t.decCur = 2#9 ∧
    t.readWord (.nodeWin0 0#9) = 0xC0000061#32 ∧ t.readWord (.nodeWin0 2#9) = 0x80020000#32 ∧
    t.readWord (.nodeWin1 2#9) = 3#32 := by decide +kernel

/-- V-BUILD-5 (42_tree_builder.md R159): ties by index, first extracted left. -/
theorem test_build_ties :
    (after .build (counting [(0x61#8, 5#32), (0x62#8, 2#32), (0x63#8, 1#32), (0x64#8, 1#32), (0x72#8, 2#32)] 11#32)).node =
      abraBuilt.node := by decide +kernel

/-- V-GEN-6, with its CODE_WIN words. -/
theorem test_gen : let t := after .gen abraBuilt
    t.result = 3#32 ∧ t.code.at 0x63#8 = [true, false, false] ∧ t.readWord (.codeWin 0x62#8 0#3) = 3#32 ∧
    t.readWord (.codeLenWin 0x61#8) = 1#32 ∧ t.codeLen.at 0x7A#8 = 0#8 := by decide +kernel

/-- V-GEN-2. -/
theorem test_gen_singleton : let t := after .gen aaaaBuilt
    t.code.at 0x61#8 = [false] ∧ t.statusWord = 0x10C#32 ∧ t.result = 1#32 := by decide +kernel

/-- V-ENC-1. -/
theorem test_enc : (after (.enc 0x61#8) aabCoded).eoq = [true] ∧ (after (.enc 0x61#8) aabCoded).result = 1#32 := by
  decide +kernel

/-- V-ENC-5, and the order of checks of 40_command_model.md R128. -/
theorem test_enc_full : let s := { aaaaCoded with eoq := List.replicate 512 false }
    (after (.enc 0x61#8) s).statusWord = 0x17C#32 ∧ (after (.enc 0x62#8) s).lastErr = some .unknownSymbol := by
  decide +kernel

/-- V-DEC-2: "abracadabra" from its 23 bits. -/
theorem test_dec : let t := after (.dec 23#6) { abraBuilt with argL := 0x003B5176 }
    t.soq = [0x61#8, 0x62#8, 0x72#8, 0x61#8, 0x63#8, 0x61#8, 0x64#8, 0x61#8, 0x62#8, 0x72#8, 0x61#8] ∧ t.result = 11#32 ∧
    t.decCur = 8#9 := by decide +kernel

/-- V-DEC-6. -/
theorem test_dec_singleton : let t := after (.dec 1#6) { aaaaCoded with argL := 1, soq := [0x61#8], result := 4 }
    t.statusWord = 0x13C#32 ∧ t.soq = [0x61#8] ∧ t.result = 4#32 := by decide +kernel

/-- V-DEC-7 and V-DEC-8. -/
theorem test_dend : let s := { abcdBuilt with decCur := 4 }
    (after .dend s).statusWord = 0x32#32 ∧ (after .dend s).decCur = 4#9 ∧ (after .dend abcdBuilt).result = 0#32 := by
  decide +kernel
theorem test_drst : let t := after .drst { abcdBuilt with decCur := 4 }
    t.decCur = 6#9 ∧ t.statusWord = 0xA#32 := by decide +kernel

/-! ## The step and the host -/

/-- V-ILL-7: an illegal word outside every phase reports ILLEGAL_COMMAND, not SEQUENCE. -/
theorem test_step_illegal : let t := stepped (aabBuilt.withFetchWord 32 0x06000161)
    t.lastErr = some .illegalCommand ∧ errWord t.err = 0x10#32 ∧ t.busy = false := by decide +kernel

/-- V-CNT-1 by one step from the placed word. -/
theorem test_step_count : (stepped (State.reset.withFetchWord 32 0x02000061)).freq.at 0x61#8 = 1#32 := by decide +kernel

/-- V-HOST-1. -/
theorem test_reads : (stepped { State.reset with schedule := [readReg .id] }).resp = some (.read 0x48554646#32 false) ∧
    (stepped { State.reset with schedule := [readReg .params] }).resp = some (.read 0x02002008#32 false) ∧
    (stepped { State.reset with schedule := [readReg .status] }).resp = some (.read 8#32 false) := by decide +kernel

/-- V-HOST-2: a CMD write while BUSY = 1 is dropped, and STATUS shows BUSY and nothing of the command. -/
theorem test_busy : let s := { State.reset with busy := true, cmdL := 0x02000061, schedule := [writeReg .cmd 0x02000062] }
    errWord (stepped s).err = 0x100#32 ∧ (stepped s).cmdL = 0x02000061#32 ∧ s.statusWord = 9#32 := by decide +kernel

/-- V-HOST-3, V-HOST-4, V-HOST-5. -/
theorem test_access :
    ([Event.host (.read 0x002 4), .host (.read 0x040 4), .host (.read 0xC00 4), .host (.write 0x004 1 0x04000000)].map
      (fun e => let t := stepped { State.reset with schedule := [e] }; (errWord t.err, t.busy, t.resp))) =
    [(0x200#32, false, some (.read 0 true)), (0x200#32, false, some (.read 0 true)), (0x200#32, false, some (.read 0 true)),
      (0x200#32, false, some (.write true))] := by decide +kernel

/-- V-HOST-6. -/
theorem test_err_write : errWord (stepped { State.reset with err := 0b000010011#9, schedule := [writeReg .err 0x20] }).err =
    0x06#32 := by decide +kernel

/-- V-ENC-2, V-ENC-3: the words of EOQ_DATA; 20_memory.md R80: the words of SOQ_DATA. -/
theorem test_pops :
    (stepped { State.reset with eoq := [true, true, false], schedule := [readReg .eoqData] }).resp =
      some (.read 0x00030003#32 false) ∧
    (stepped { State.reset with
      eoq := [false, true, true, false, true, true, true, false, true, false, false, false, true, false, true, false, true]
      schedule := [readReg .eoqData] }).resp = some (.read 0x00105176#32 false) ∧
    (stepped { State.reset with soq := [0x61#8, 0x62#8], schedule := [readReg .soqData] }).resp =
      some (.read 0x00000161#32 false) := by decide +kernel

/-- Reset aborts a command in flight and drops the attempted transaction (70_reset_and_hazards.md R250, R251). -/
theorem test_rst : let t := stepped { aabCoded with busy := true, cmdL := 0x01000000, schedule := [.rst (some (.write 0x008 4 5))] }
    t.phase = .counting ∧ t.busy = false ∧ t.arg = 0#32 ∧ t.node = [] ∧ t.lastErr = none := by decide +kernel

/-! ## Witnesses: states that meet the invariant -/

theorem counts_aab_at (sym : Symbol) : (counts [(0x61#8, 2#32), (0x62#8, 1#32)]).at sym =
    if sym = 0x62#8 then 1#32 else if sym = 0x61#8 then 2#32 else 0#32 := by
  simp [counts, SymTable.at_put]

theorem counts_aaaa_at (sym : Symbol) : (counts [(0x61#8, 4#32)]).at sym = if sym = 0x61#8 then 4#32 else 0#32 := by
  simp [counts, SymTable.at_put]

theorem counted_aab : allSymbols.filter (fun sym => (counts [(0x61#8, 2#32), (0x62#8, 1#32)]).at sym != 0#32) =
    [0x61#8, 0x62#8] := by
  simp only [counts_aab_at]
  decide +kernel

theorem counted_aaaa : allSymbols.filter (fun sym => (counts [(0x61#8, 4#32)]).at sym != 0#32) = [0x61#8] := by
  simp only [counts_aaaa_at]
  decide +kernel

theorem total_aab : freqSum (counts [(0x61#8, 2#32), (0x62#8, 1#32)]) = 3 := by
  unfold freqSum
  simp only [counts_aab_at]
  decide +kernel

theorem total_aaaa : freqSum (counts [(0x61#8, 4#32)]) = 4 := by
  unfold freqSum
  simp only [counts_aaaa_at]
  decide +kernel

theorem witness_treeOk_aab : TreeOk aabBuilt where
  nleaf_eq := (congrArg List.length counted_aab).symm
  nleaf_pos := by decide
  nnode_eq := by decide
  length_eq := by decide
  leaves := by
    show _ = List.map _ (allSymbols.filter (fun sym => (counts [(0x61#8, 2#32), (0x62#8, 1#32)]).at sym != 0#32))
    rw [counted_aab]
    decide +kernel
  internals := by
    intro i hi h
    have h1 : i < 3 := hi
    have h2 : 2 ≤ i := h
    have h3 : i = 2 := by omega
    subst h3
    exact ⟨3#32, 1#9, 0#9, by decide⟩
  child_once := by decide
  root_eq := by decide
  root_freq := by decide

theorem witness_treeOk_aaaa : TreeOk aaaaBuilt where
  nleaf_eq := (congrArg List.length counted_aaaa).symm
  nleaf_pos := by decide
  nnode_eq := by decide
  length_eq := by decide
  leaves := by
    show _ = List.map _ (allSymbols.filter (fun sym => (counts [(0x61#8, 4#32)]).at sym != 0#32))
    rw [counted_aaaa]
    decide +kernel
  internals := by
    intro i hi h
    have h1 : i < 1 := hi
    have h2 : 1 ≤ i := h
    omega
  child_once := by decide
  root_eq := by decide
  root_freq := by decide

/-- A coded state with the same counts, tree and total has the tree invariant too. -/
theorem treeOk_coded {s : State} (h : TreeOk s) (codes : List (Symbol × List Bool)) : TreeOk (coded s codes) :=
  ⟨h.1, h.2, h.3, h.4, h.5, h.6, h.7, h.8, h.9⟩

theorem witness_inv_aabBuilt : Inv aabBuilt where
  total_eq := total_aab.symm
  empty := fun h => by cases h
  tree := fun _ => witness_treeOk_aab
  uncoded := fun _ sym => SymTable.at_all _ sym
  code_length := fun sym => by simp [aabBuilt, built, State.reset]
  codes := fun h => by cases h
  cursor := .inl rfl
  eoq_le := by decide
  soq_le := by decide

theorem code_aab_at (sym : Symbol) : aabCoded.code.at sym =
    if sym = 0x62#8 then [false] else if sym = 0x61#8 then [true] else [] := by
  simp [aabCoded, coded, SymTable.at_put]

theorem codeLen_aab_at (sym : Symbol) : aabCoded.codeLen.at sym =
    if sym = 0x62#8 then 1#8 else if sym = 0x61#8 then 1#8 else 0#8 := by
  simp [aabCoded, coded, SymTable.at_put]

theorem code_aaaa_at (sym : Symbol) : aaaaCoded.code.at sym = if sym = 0x61#8 then [false] else [] := by
  simp [aaaaCoded, coded, SymTable.at_put]

theorem codeLen_aaaa_at (sym : Symbol) : aaaaCoded.codeLen.at sym = if sym = 0x61#8 then 1#8 else 0#8 := by
  simp [aaaaCoded, coded, SymTable.at_put]

theorem freq_aab_at (sym : Symbol) : aabCoded.freq.at sym =
    if sym = 0x62#8 then 1#32 else if sym = 0x61#8 then 2#32 else 0#32 := counts_aab_at sym

theorem freq_aaaa_at (sym : Symbol) : aaaaCoded.freq.at sym = if sym = 0x61#8 then 4#32 else 0#32 := counts_aaaa_at sym

theorem witness_inv_aabCoded : Inv aabCoded where
  total_eq := total_aab.symm
  empty := fun h => by cases h
  tree := fun _ => treeOk_coded witness_treeOk_aab _
  uncoded := fun h => absurd rfl h
  code_length := by simp only [code_aab_at, codeLen_aab_at]; decide +kernel
  codes := fun _ => {
    coded_iff := by simp only [codeLen_aab_at, freq_aab_at]; decide +kernel
    paths := fun _ => by simp only [code_aab_at, freq_aab_at]; decide +kernel
    sole := fun h => absurd h (by decide)
    bound := by simp only [codeLen_aab_at]; decide +kernel }
  cursor := .inl rfl
  eoq_le := by decide
  soq_le := by decide

theorem witness_inv_aaaaCoded : Inv aaaaCoded where
  total_eq := total_aaaa.symm
  empty := fun h => by cases h
  tree := fun _ => treeOk_coded witness_treeOk_aaaa _
  uncoded := fun h => absurd rfl h
  code_length := by simp only [code_aaaa_at, codeLen_aaaa_at]; decide +kernel
  codes := fun _ => {
    coded_iff := by simp only [codeLen_aaaa_at, freq_aaaa_at]; decide +kernel
    paths := fun h => absurd h (by decide)
    sole := fun _ => by simp only [code_aaaa_at, freq_aaaa_at]; decide +kernel
    bound := by simp only [codeLen_aaaa_at]; decide +kernel }
  cursor := .inl rfl
  eoq_le := by decide
  soq_le := by decide

/-! ## Witnesses: encoding -/

/-- DecodeOfEncodeIsTheCommand, DecodedWordIsItsEncoding, DecodedWordMatchesOneRow: both ends of K's range. -/
theorem witness_encoding : (Instr.dec 1#6).wellFormed = true ∧ (Instr.dec 32#6).wellFormed = true ∧
    decode 0x07000001#32 = some (.dec 1#6) ∧ decode 0x07000020#32 = some (.dec 32#6) := by decide

/-- IllegalWordsFailAtCompletion, both parts. -/
theorem witness_IllegalWordsFailAtCompletion :
    let s := { State.reset with schedule := [.host (.write 0x004 4 0x07000021#32), .engine] }
    s.busy = false ∧ s.schedule = .host (.write 0x004 4 0x07000021#32) :: .engine :: [] ∧ decode 0x07000021#32 = none ∧
    decode 0x09FFFFFF#32 = none ∧ decode 0x0A000000#32 = none := by decide +kernel

/-! ## Witnesses: the step -/

theorem witness_ResetCycleRestoresTheResetState :
    let s := { aabCoded with busy := true, schedule := [.rst (some (.write 0x008 4 5#32)), .engine] }
    s.schedule = .rst (some (.write 0x008 4 5#32)) :: [.engine] := rfl

/-- EngineTurnRunsTheDecodedCommand: an engine event, and an empty schedule. -/
theorem witness_EngineTurnRunsTheDecodedCommand :
    (∃ s : State, s.schedule = .engine :: [] ∧ s.busy = true ∧ decode s.cmdL = some (.count 0x61#8)) ∧
    (∃ s : State, s.schedule = [] ∧ s.busy = true ∧ decode s.cmdL = some .drst) :=
  ⟨⟨{ State.reset with schedule := [.engine], busy := true, cmdL := 0x02000061#32 }, rfl, rfl, rfl⟩,
    ⟨{ State.reset with busy := true, cmdL := 0x09000000#32 }, rfl, rfl, rfl⟩⟩

theorem witness_PlacedWordRunsNext : decodeTableWord 32 0x060000FF = some (.enc 0xFF#8) := by decide

/-- CmdWriteIsAcceptedOrDropped, HostCannotAlterTheCommandInFlight: idle, and with a command in flight. -/
theorem witness_CmdWriteIsAcceptedOrDropped :
    (∃ s : State, s.schedule = .host (.write 0x004 4 0x01000000#32) :: [] ∧ s.busy = false) ∧
    (∃ s : State, s.schedule = .host (.write 0x004 4 0x01000000#32) :: [] ∧ s.busy = true) :=
  ⟨⟨{ State.reset with schedule := [.host (.write 0x004 4 0x01000000#32)] }, rfl, rfl⟩,
    ⟨{ State.reset with schedule := [.host (.write 0x004 4 0x01000000#32)], busy := true }, rfl, rfl⟩⟩

theorem witness_IdleEngineChangesNothing :
    (∃ s : State, s.schedule = .engine :: [] ∧ s.busy = false) ∧ (∃ s : State, s.schedule = [] ∧ s.busy = false) :=
  ⟨⟨{ State.reset with schedule := [.engine] }, rfl, rfl⟩, ⟨State.reset, rfl, rfl⟩⟩

theorem witness_IssueAndPollIsLatencyIndependent :
    let s := { State.reset with schedule := issueEvents 2 (.count 0x61#8) ++ [readReg .result] }
    (Instr.count 0x61#8).wellFormed = true ∧ s.busy = false ∧
    s.schedule = issueEvents 2 (.count 0x61#8) ++ [readReg .result] := ⟨rfl, rfl, rfl⟩

theorem witness_LatchesAreUnobservableWhileIdle : SameToHost State.reset { State.reset with cmdL := 5#32, argL := 6#32 } :=
  ⟨rfl, fun h => by cases h⟩

/-! ## Witnesses: outcomes -/

/-- FailedCommandChangesOnlyTheErrorRecord, CommandErrorsAreCodesOneToSeven, PhaseTransitions, EachTableHasItsOwnWriters:
a failure. -/
theorem witness_failure : exec .build State.reset = .next (after .build State.reset) ∧
    (after .build State.reset).lastErr = some .invalidInput := ⟨rfl, by decide +kernel⟩

/-- SuccessNeverClearsErr, PhaseTransitions, EachTableHasItsOwnWriters, GenIsIdempotent: successes. -/
theorem witness_success : exec .nop aabBuilt = .next (after .nop aabBuilt) ∧ (after .nop aabBuilt).lastErr = none ∧
    exec .build aabCounting = .next (after .build aabCounting) ∧ (after .build aabCounting).lastErr = none ∧
    exec .gen aabCoded = .next (after .gen aabCoded) ∧ (after .gen aabCoded).lastErr = none := by
  refine ⟨rfl, by decide, by rw [after, exec_eq], ?_, by rw [after, exec_eq], ?_⟩ <;> rw [after, exec_eq]
  · rw [outcomeOf_allowed rfl rfl, bodyOf]
    rcases buildBody_cases aabCounting with ⟨h, _⟩ | ⟨_, e⟩
    · exact absurd ((congrArg List.length counted_aab).symm.trans ((length_createLeaves _).symm.trans h)) (by decide)
    · rw [e]; rfl
  · rfl

/-- OutsideItsPhasesACommandFailsWithSequence: the three phases. -/
theorem witness_OutsideItsPhases : State.reset.phase = .counting ∧ (Instr.dec 32#6).wellFormed = true ∧
    aabBuilt.phase = .built ∧ (Instr.enc 0x61#8).wellFormed = true ∧ aabCoded.phase = .coded ∧
    Instr.build.wellFormed = true := by decide +kernel

/-- EachTableHasItsOwnWriters: a command outside every list of writers. -/
theorem witness_EachTableHasItsOwnWriters : exec .dend aabBuilt = .next (after .dend aabBuilt) ∧
    (∀ sym, Instr.dend ≠ .count sym ∧ Instr.dend ≠ .setf sym ∧ Instr.dend ≠ .enc sym) ∧ (∀ k, Instr.dend ≠ .dec k) ∧
    Instr.dend ≠ .clr ∧ Instr.dend ≠ .build ∧ Instr.dend ≠ .gen ∧ Instr.dend ≠ .drst := by
  refine ⟨rfl, fun sym => ⟨?_, ?_, ?_⟩, fun k => ?_, ?_, ?_, ?_, ?_⟩ <;> exact Instr.noConfusion

/-! ## Witnesses: the commands -/

/-- CountAddsOneOccurrence at both sides of the boundary. -/
theorem witness_CountAddsOneOccurrence :
    (counting [(0x61#8, 0xFFFFFFFE#32)] 0xFFFFFFFE#32).phase = .counting ∧
    (counting [(0x61#8, 0xFFFFFFFE#32)] 0xFFFFFFFE#32).total ≠ 0xFFFFFFFF#32 ∧
    (counting [(0x61#8, 0xFFFFFFFF#32)] 0xFFFFFFFF#32).phase = .counting ∧
    (counting [(0x61#8, 0xFFFFFFFF#32)] 0xFFFFFFFF#32).total = 0xFFFFFFFF#32 := by decide +kernel

/-- SetfReplacesOneCount at both sides of the boundary (V-SETF-1, V-SETF-4). -/
theorem witness_SetfReplacesOneCount :
    (State.reset.phase = .counting ∧ (State.reset.freq.at 0x61#8).toNat ≤ State.reset.total.toNat ∧
      0xFFFFFFFF + (State.reset.freq.at 0x61#8).toNat =
        State.reset.total.toNat + { State.reset with argL := 0xFFFFFFFF#32 }.argL.toNat) ∧
    ((counting [(0x61#8, 0xFFFFFFFF#32)] 0xFFFFFFFF#32).phase = .counting ∧
      ((counting [(0x61#8, 0xFFFFFFFF#32)] 0xFFFFFFFF#32).freq.at 0x62#8).toNat ≤
        (counting [(0x61#8, 0xFFFFFFFF#32)] 0xFFFFFFFF#32).total.toNat ∧
      0x100000000 + ((counting [(0x61#8, 0xFFFFFFFF#32)] 0xFFFFFFFF#32).freq.at 0x62#8).toNat =
        (counting [(0x61#8, 0xFFFFFFFF#32)] 0xFFFFFFFF#32).total.toNat +
          { counting [(0x61#8, 0xFFFFFFFF#32)] 0xFFFFFFFF#32 with argL := 1#32 }.argL.toNat) := by
  decide +kernel

/-- BuildLeavesTheTreeRegisters, BuildMergesTheTwoLeastKeys, BuildMakesAStrictBinaryTree: two symbols, and one. -/
theorem witness_build : aabCounting.phase = .counting ∧ distinctCount aabCounting.freq = 2 ∧
    aabCounting.total.toNat = freqSum aabCounting.freq ∧ (2 ≤ 2 ∧ 2 < 2 * 2 - 1) ∧
    distinctCount (counting [(0x61#8, 4#32)] 4#32).freq = 1 ∧
    (counting [(0x61#8, 4#32)] 4#32).total.toNat = freqSum (counting [(0x61#8, 4#32)] 4#32).freq :=
  ⟨rfl, congrArg List.length counted_aab, total_aab.symm, by decide, congrArg List.length counted_aaaa, total_aaaa.symm⟩

theorem witness_BuildOfNoSymbolFails : State.reset.phase = .counting ∧ ∀ sym, State.reset.freq.at sym = 0#32 :=
  ⟨rfl, fun sym => SymTable.at_all _ sym⟩

/-- GenDerivesTheCodeTable: two leaves, and one, with a counted and an uncounted symbol. -/
theorem witness_GenDerivesTheCodeTable : TreeOk aabBuilt ∧ TreeOk aaaaBuilt ∧ aabBuilt.phase ≠ .counting ∧
    aaaaBuilt.phase ≠ .counting ∧ aabBuilt.nleaf ≠ 1#9 ∧ aaaaBuilt.nleaf = 1#9 ∧ aabBuilt.freq.at 0x61#8 ≠ 0#32 ∧
    aaaaBuilt.freq.at 0x61#8 ≠ 0#32 ∧ aabBuilt.freq.at 0x7A#8 = 0#32 := by
  refine ⟨witness_treeOk_aab, witness_treeOk_aaaa, ?_⟩
  decide +kernel

theorem witness_CodesArePrefixFree : Inv aabCoded ∧ aabCoded.phase = .coded ∧ 2 ≤ aabCoded.nleaf.toNat ∧
    aabCoded.freq.at 0x61#8 ≠ 0#32 ∧ aabCoded.freq.at 0x62#8 ≠ 0#32 ∧ 0x61#8 ≠ 0x62#8 := by
  refine ⟨witness_inv_aabCoded, ?_⟩
  decide +kernel

/-- EncAppendsTheCode: the last bit that fits. -/
theorem witness_EncAppendsTheCode : let s := { aabCoded with eoq := List.replicate 511 false }
    s.phase = .coded ∧ s.codeLen.at 0x61#8 ≠ 0#8 ∧ (s.code.at 0x61#8).length = (s.codeLen.at 0x61#8).toNat ∧
    s.eoq.length + (s.codeLen.at 0x61#8).toNat = 512 := by decide +kernel

/-- EncFailsWithoutCodeOrRoom: no code, and no room. -/
theorem witness_EncFailsWithoutCodeOrRoom : let s := { aabCoded with eoq := List.replicate 512 false }
    s.phase = .coded ∧ s.codeLen.at 0x7A#8 = 0#8 ∧ s.codeLen.at 0x61#8 ≠ 0#8 ∧ s.eoq.length ≤ 512 ∧
    512 < s.eoq.length + (s.codeLen.at 0x61#8).toNat := by decide +kernel

/-- DecoderStepFollowsTheTree: a singleton root, a leaf child, an internal child. -/
theorem witness_DecoderStepFollowsTheTree : aaaaBuilt.node[(0#9).toNat]? = some (.leaf 0x61#8 4#32) ∧
    aabBuilt.node[(2#9).toNat]? = some (.internal 3#32 1#9 0#9) ∧ aabBuilt.node[(1#9).toNat]? = some (.leaf 0x62#8 1#32) ∧
    abcdBuilt.node[(6#9).toNat]? = some (.internal 4#32 4#9 5#9) ∧
    abcdBuilt.node[(5#9).toNat]? = some (.internal 2#32 2#9 3#9) := by decide

/-- DecoderBatchesCompose: a step that descends, one that emits, one that fails. -/
theorem witness_DecoderBatchesCompose : decStep abcdBuilt.node abcdBuilt.root 6#9 false = (4#9, .none) ∧
    decStep abcdBuilt.node abcdBuilt.root 4#9 true = (6#9, .emit 0x62#8) ∧
    decStep aaaaBuilt.node aaaaBuilt.root 0#9 true = (0#9, .fail) := by decide

/-- DecFeedsItsBatch: one symbol too many, the last batch that fits, and a failing step. -/
theorem witness_DecFeedsItsBatch : (1 ≤ (32#6).toNat ∧ (32#6).toNat ≤ 32) ∧ aabBuilt.phase ≠ .counting ∧
    32 < { aabBuilt with soq := [0x61#8] }.soq.length + (32#6).toNat ∧ aabBuilt.soq.length + (32#6).toNat = 32 ∧
    decFeed aabBuilt.node aabBuilt.root aabBuilt.decCur ((List.range (1#6).toNat).map (fun j => (1#32).getLsbD j)) =
      some (2#9, [0x61#8]) ∧
    decFeed aaaaBuilt.node aaaaBuilt.root aaaaBuilt.decCur ((List.range (1#6).toNat).map (fun j => (1#32).getLsbD j)) =
      none := by decide +kernel

/-- DecNeverFailsInATree: two leaves, and a singleton tree with bits 0. -/
theorem witness_DecNeverFailsInATree : Inv aabCoded ∧ Inv aaaaCoded ∧ aabCoded.phase ≠ .counting ∧
    aaaaCoded.phase ≠ .counting ∧ aabCoded.soq.length + (32#6).toNat ≤ 32 ∧ aaaaCoded.soq.length + (32#6).toNat ≤ 32 ∧
    2 ≤ aabCoded.nleaf.toNat ∧ ∀ j, j < (32#6).toNat → aaaaCoded.argL.getLsbD j = false := by
  refine ⟨witness_inv_aabCoded, witness_inv_aaaaCoded, ?_⟩
  decide +kernel

/-- DendAcceptsOnlyAtTheRoot, DrstReturnsTheCursorToTheRoot: at the root, and off it. -/
theorem witness_DendAcceptsOnlyAtTheRoot : abcdBuilt.phase ≠ .counting ∧ abcdBuilt.decCur = abcdBuilt.root ∧
    { abcdBuilt with decCur := 4#9 }.decCur ≠ abcdBuilt.root := by decide

/-- DecodingInvertsEncoding, DecoderConsumesExactlyTheEmittedCodes. -/
theorem witness_DecodingInvertsEncoding : Inv aabCoded ∧ aabCoded.phase = .coded ∧
    (∀ sym ∈ [0x61#8, 0x61#8, 0x62#8], aabCoded.freq.at sym ≠ 0#32) ∧
    decFeed aabCoded.node aabCoded.root aabCoded.root [true, true, false] = some (2#9, [0x61#8, 0x61#8, 0x62#8]) := by
  refine ⟨witness_inv_aabCoded, ?_⟩
  decide +kernel

/-! ## Witnesses: the host's address space -/

/-- EveryTargetHasItsOwnAddress: the first and the last address of each range. -/
theorem witness_EveryTargetHasItsOwnAddress : accessTarget 0x000 4 = some .id ∧ accessTarget 0x03C 4 = some .params ∧
    accessTarget 0x400 4 = some (.freqWin 0x00#8) ∧ accessTarget 0x7FC 4 = some (.freqWin 0xFF#8) ∧
    accessTarget 0x800 4 = some (.codeLenWin 0x00#8) ∧ accessTarget 0xBFC 4 = some (.codeLenWin 0xFF#8) ∧
    accessTarget 0x1000 4 = some (.nodeWin0 0#9) ∧ accessTarget 0x1FFC 4 = some (.nodeWin1 511#9) ∧
    accessTarget 0x2000 4 = some (.codeWin 0x00#8 0#3) ∧ accessTarget 0x3FFC 4 = some (.codeWin 0xFF#8 7#3) := by
  decide +kernel

/-- IllegalAccessOnlySetsErrNine: a short access, a misaligned one, and both ends of both holes. -/
theorem witness_IllegalAccessOnlySetsErrNine :
    [((0x004 : Addr), 1), (0x002, 4), (0x040, 4), (0x3FC, 4), (0xC00, 4), (0xFFC, 4)].all (fun x =>
      decide (x.2 ≠ 4 ∨ x.1.toNat % 4 ≠ 0 ∨ (0x040 ≤ x.1.toNat ∧ x.1.toNat < 0x400) ∨
        (0xC00 ≤ x.1.toNat ∧ x.1.toNat < 0x1000))) = true ∧
    { State.reset with schedule := [.host (.read 0x3FC 4)] }.schedule = .host (.read 0x3FC 4) :: [] ∧
    { State.reset with schedule := [.host (.write 0x004 1 7#32)] }.schedule = .host (.write 0x004 1 7#32) :: [] := by
  decide +kernel

/-- RegisterReads, OtherReadsAreIdempotent, WritesToReadOnlyAddressesAreIgnored: the ends of each legal range. -/
theorem witness_legal_addresses :
    [(0x000 : Addr), 0x03C, 0x400, 0xBFC, 0x1000, 0x3FFC].all (fun a =>
      decide (a.toNat % 4 = 0 ∧ (a.toNat < 0x040 ∨ (0x400 ≤ a.toNat ∧ a.toNat < 0xC00) ∨ 0x1000 ≤ a.toNat) ∧
        a ≠ 0x030#14 ∧ a ≠ 0x038#14 ∧ a ≠ 0x004#14 ∧ a ≠ 0x008#14 ∧ a ≠ 0x010#14)) = true ∧
    { State.reset with schedule := [.host (.read 0x03C 4)] }.schedule = .host (.read 0x03C 4) :: [] ∧
    { State.reset with schedule := [.host (.write 0x3FFC 4 7#32)] }.schedule = .host (.write 0x3FFC 4 7#32) :: [] := by
  decide +kernel

/-- OtherReadsAreIdempotent: two reads of STATUS in a row, the second from the state the first leaves, with other events
after it and other latches. -/
theorem witness_OtherReadsAreIdempotent :
    let s := { State.reset with schedule := [.host (.read 0x00C 4), .host (.read 0x00C 4), .engine] }
    let s' := { State.reset with
      schedule := [.host (.read 0x00C 4), .engine], resp := some (.read 8#32 false), cmdL := 5#32, argL := 6#32 }
    s.schedule = .host (.read 0x00C 4) :: [.host (.read 0x00C 4), .engine] ∧
    s'.unlatched = { s.unlatched with schedule := s'.schedule, resp := s'.resp } ∧
    s'.schedule = .host (.read 0x00C 4) :: [.engine] := ⟨rfl, rfl, rfl⟩

/-- ErrWriteClearsTheOnes, ArgWriteSetsArg, EoqReadPopsUpToSixteenBits, SoqReadPopsOneSymbol: the transactions, with SOQ
empty and not. -/
theorem witness_transactions :
    { State.reset with schedule := [.host (.write 0x010 4 0x3FE#32)] }.schedule = .host (.write 0x010 4 0x3FE#32) :: [] ∧
    { State.reset with schedule := [.host (.write 0x008 4 9#32)] }.schedule = .host (.write 0x008 4 9#32) :: [] ∧
    { State.reset with schedule := [.host (.read 0x030 4)] }.schedule = .host (.read 0x030 4) :: [] ∧
    { State.reset with schedule := [.host (.read 0x038 4)] }.schedule = .host (.read 0x038 4) :: [] ∧
    State.reset.soq = [] ∧ { State.reset with soq := [0x61#8] }.soq = 0x61#8 :: [] := by decide +kernel

/-- StatusFields: each phase, and an error recorded. -/
theorem witness_StatusFields : State.reset.phase = .counting ∧ aabBuilt.phase = .built ∧ aabCoded.phase = .coded ∧
    State.reset.lastErr = none ∧ { State.reset with lastErr := some .invalidInput }.lastErr = some .invalidInput := by decide

/-- NodeWindowWords: a read of a leaf, of the root and of the first and the last index past the tree, at both words, and a
write. -/
theorem witness_NodeWindowWords :
    [((0x1000 : Addr), 0x1000, (0#9)), (0x1010, 0x1000, 2#9), (0x1018, 0x1000, 3#9), (0x1FF8, 0x1000, 511#9),
      (0x1004, 0x1004, 0#9), (0x1014, 0x1004, 2#9), (0x101C, 0x1004, 3#9), (0x1FFC, 0x1004, 511#9)].all
        (fun x => decide (x.1.toNat = x.2.1 + 8 * x.2.2.toNat)) = true ∧
    { aabBuilt with schedule := [.host (.read 0x1FF8 4)] }.schedule = .host (.read 0x1FF8 4) :: [] ∧
    { aabBuilt with schedule := [.host (.write 0x1FFC 4 7#32)] }.schedule = .host (.write 0x1FFC 4 7#32) :: [] ∧
    (0#9 < aabBuilt.nnode ∧ aabBuilt.node[(0#9).toNat]? = some (.leaf 0x61#8 2#32)) ∧
    (2#9 < aabBuilt.nnode ∧ aabBuilt.node[(2#9).toNat]? = some (.internal 3#32 1#9 0#9)) ∧ aabBuilt.nnode ≤ 3#9 ∧
    aabBuilt.nnode ≤ 511#9 := by decide +kernel

/-- CodeAndCountWindowWords: a read in each window, the ends of their ranges, and a symbol with a code, at the bit inside it
and the first bit past it. -/
theorem witness_CodeAndCountWindowWords :
    [((0x2000 : Addr), 0x2000, 32, (0#8), (0#3)), (0x2C20, 0x2000, 32, 0x61#8, 0#3), (0x3FFC, 0x2000, 32, 0xFF#8, 7#3),
      (0x800, 0x800, 4, 0#8, 0#3), (0xBFC, 0x800, 4, 0xFF#8, 0#3), (0x400, 0x400, 4, 0#8, 0#3),
      (0x7FC, 0x400, 4, 0xFF#8, 0#3)].all
        (fun x => decide (x.1.toNat = x.2.1 + x.2.2.1 * x.2.2.2.1.toNat + 4 * x.2.2.2.2.toNat)) = true ∧
    { aabCoded with schedule := [.host (.read 0x2C20 4)] }.schedule = .host (.read 0x2C20 4) :: [] ∧
    (aabCoded.code.at 0x61#8).length = (aabCoded.codeLen.at 0x61#8).toNat ∧
    32 * (0#3).toNat + 0 < (aabCoded.codeLen.at 0x61#8).toNat ∧
    ¬ 32 * (0#3).toNat + 1 < (aabCoded.codeLen.at 0x61#8).toNat := by decide +kernel

theorem witness_CodeWindowsReadZeroOutsideCoded : Inv aabBuilt ∧ aabBuilt.phase ≠ .coded :=
  ⟨witness_inv_aabBuilt, by decide⟩

/-- CountsAreAtMostTotal and EveryStepKeepsTheInvariant: a state that meets the invariant, and its step. -/
theorem witness_EveryStepKeepsTheInvariant : Inv aabCoded ∧ step aabCoded = .next (stepped aabCoded) :=
  ⟨witness_inv_aabCoded, rfl⟩

end Sys2Proof.Tests
end

section
/-! The state of HUFF (10_state.md): what BUILD and GEN make of it, what every step keeps, which command writes which part of
it, and what of it a host reads. -/

namespace Sys2Proof.Machine

/-! ### The tree of BUILD -/

/-- After a whole merge every index but the root is named as a child once, and the root never (10_state.md R40 (d)). -/
theorem MergeInv.child_once {ls nodes : List Node} {root i : Nat} (h : MergeInv ls nodes [root]) (hi : i < nodes.length) :
    (childSlots nodes).count i = if i = root then 0 else 1 := by
  have hroot : i = root ↔ i ∉ childSlots nodes := by simpa [hi] using h.mem_iff i
  split
  · exact List.count_eq_zero.2 (hroot.1 ‹_›)
  · exact List.count_eq_one_of_mem h.slots_nodup (by simpa [hroot] using ‹¬ i = root›)

/-- From counts that sum to TOTAL, BUILD makes a tree that meets the tree invariant (10_state.md R25, R40). -/
theorem treeOk_withTree {s : State} (hpos : 1 ≤ (createLeaves s.freq).length) (htotal : s.total.toNat = freqSum s.freq) :
    TreeOk (s.withTree (createLeaves s.freq)) := by
  have hle : (createLeaves s.freq).length ≤ 256 := by
    rw [length_createLeaves]
    exact distinctCount_le s.freq
  obtain ⟨hinv, hlen, hroot⟩ := mergeTree_spec (childSlots_createLeaves s.freq) hpos hle
  obtain ⟨hfreq, hsums⟩ := mergeTree_sum hpos (htotal ▸ s.total.isLt)
  have hnleaf : (s.withTree (createLeaves s.freq)).nleaf.toNat = (createLeaves s.freq).length := by
    simp; omega
  have hnnode : (s.withTree (createLeaves s.freq)).nnode.toNat = 2 * (createLeaves s.freq).length - 1 := by
    simp; omega
  have hrootNat : (s.withTree (createLeaves s.freq)).root.toNat = (mergeTree (createLeaves s.freq)).2 := by
    simp; omega
  constructor
  case nleaf_eq => rw [hnleaf, length_createLeaves]; rfl
  case nleaf_pos => omega
  case nnode_eq => omega
  case length_eq => exact hlen.trans hnnode.symm
  case leaves =>
    rw [hnleaf]
    exact (List.prefix_iff_eq_take.1 hinv.leaves).symm
  case internals =>
    intro i hi hge
    exact hsums i (by omega) (by omega)
  case child_once =>
    intro i hi
    rw [hrootNat]
    exact hinv.child_once (by omega)
  case root_eq => omega
  case root_freq =>
    rw [hrootNat]
    exact BitVec.eq_of_toNat_eq (hfreq.trans htotal.symm)

/-- The tree invariant reads the counts, TOTAL, the tree and its registers, and nothing else. -/
theorem TreeOk.congr {s t : State} (h : TreeOk s) (freq : t.freq = s.freq) (total : t.total = s.total)
    (node : t.node = s.node) (nnode : t.nnode = s.nnode) (nleaf : t.nleaf = s.nleaf) (root : t.root = s.root) :
    TreeOk t := by
  constructor <;> simp only [freq, total, node, nnode, nleaf, root]
  exacts [h.nleaf_eq, h.nleaf_pos, h.nnode_eq, h.length_eq, h.leaves, h.internals, h.child_once, h.root_eq, h.root_freq]

/-- Settles O32: the leaves are those of the counted symbols, and the sum of the counts fits 32 bits as TOTAL does. -/
theorem buildMakesAStrictBinaryTree : Obligations.BuildMakesAStrictBinaryTree := by
  intro s hp hpos htotal
  rw [← length_createLeaves] at hpos
  have hbody : outcomeOf .build s = buildBody s := outcomeOf_allowed rfl (by simp [allowed, hp])
  rcases buildBody_cases s with ⟨hzero, -⟩ | ⟨-, e⟩
  · omega
  · rw [exec_eq, hbody, e]
    exact ⟨_, rfl, (treeOk_withTree hpos htotal).congr rfl rfl rfl rfl rfl rfl⟩

/-! ### The code table of GEN -/

/-- The state the body of GEN leaves (43_code_generator.md R170). -/
def State.generated (s : State) : State :=
  { s with
    code := codeTable (codeEntries s.node s.root)
    codeLen := codeLenTable (codeEntries s.node s.root)
    phase := .coded }

theorem genBody_eq (s : State) :
    genBody s = .ok s.generated (some (BitVec.ofNat 32 (maxCodeLen s.generated.codeLen))) := rfl

section
variable {s : State} (h : TreeOk s)
include h

/-- GEN gives a counted symbol the code of an entry of its walk, with its length (43_code_generator.md R170). -/
theorem TreeOk.generated_counted {sym : Symbol} (hs : s.freq.at sym ≠ 0#32) :
    (sym, s.generated.code.at sym) ∈ codeEntries s.node s.root ∧
      (s.generated.codeLen.at sym).toNat = (s.generated.code.at sym).length := by
  obtain ⟨p, hp⟩ := h.codeEntries_spec.2.1 sym hs
  obtain ⟨hcode, hlen⟩ := (h.codeTable_at sym).1 p hp
  have hcode : s.generated.code.at sym = p := hcode
  rw [hcode]
  exact ⟨hp, hlen⟩

/-- GEN gives no code to a symbol of count 0. -/
theorem TreeOk.generated_uncounted {sym : Symbol} (hs : s.freq.at sym = 0#32) :
    s.generated.code.at sym = [] ∧ s.generated.codeLen.at sym = 0#8 := (h.codeTable_at sym).2 hs

theorem TreeOk.generated_length (sym : Symbol) :
    (s.generated.code.at sym).length = (s.generated.codeLen.at sym).toNat := by
  by_cases hs : s.freq.at sym = 0#32
  · obtain ⟨hcode, hlen⟩ := h.generated_uncounted hs
    rw [hcode, hlen]
    rfl
  · exact (h.generated_counted hs).2.symm

/-- The code table GEN writes over a tree meets the code invariant (10_state.md R41). -/
theorem TreeOk.codeOk_generated : CodeOk s.generated := by
  obtain ⟨hspec, -, -⟩ := h.codeEntries_spec
  have hlen : ∀ sym, s.freq.at sym ≠ 0#32 → 1 ≤ (s.generated.codeLen.at sym).toNat ∧
      (s.generated.codeLen.at sym).toNat ≤ max 1 (s.nleaf.toNat - 1) := fun sym hs => by
    obtain ⟨hmem, hlen⟩ := h.generated_counted hs
    rw [hlen]
    exact (hspec sym _ hmem).2
  have hzero : ∀ sym, s.freq.at sym = 0#32 → (s.generated.codeLen.at sym).toNat = 0 := fun sym hs => by
    rw [(h.generated_uncounted hs).2]
    rfl
  constructor
  case coded_iff =>
    intro sym
    refine ⟨fun h1 hs => ?_, fun hs => (hlen sym hs).1⟩
    have := hzero sym hs
    omega
  case paths =>
    intro h2 sym hs
    exact (h.mem_codeEntries h2).1 (h.generated_counted hs).1
  case sole =>
    intro h1 sym hs
    obtain ⟨x, -, -, he⟩ := h.codeEntries_sole h1
    have hmem := (h.generated_counted hs).1
    rw [he, List.mem_singleton] at hmem
    exact congrArg Prod.snd hmem
  case bound =>
    intro sym
    by_cases hs : s.freq.at sym = 0#32
    · rw [hzero sym hs]
      exact Nat.zero_le _
    · exact (hlen sym hs).2

end

/-! ### What a successful body leaves -/

/-- Each command's body when it succeeds: the state it leaves, its result, and the checks it passed. -/
inductive Succeeds (s : State) : Instr → State → Option Word → Prop
  | nop : Succeeds s .nop s none
  | clr : Succeeds s .clr s.cleared (some 0)
  | count (sym : Symbol) (room : s.total.toNat ≠ 0xFFFFFFFF) :
      Succeeds s (.count sym) { s with freq := s.freq.put sym (s.freq.at sym + 1), total := s.total + 1 }
        (some (s.freq.at sym + 1))
  | setf (sym : Symbol) (room : s.setfTotal sym ≤ 0xFFFFFFFF) :
      Succeeds s (.setf sym) { s with freq := s.freq.put sym s.argL, total := BitVec.ofNat 32 (s.setfTotal sym) }
        (some (BitVec.ofNat 32 (s.setfTotal sym)))
  | build (counted : 1 ≤ (createLeaves s.freq).length) :
      Succeeds s .build (s.withTree (createLeaves s.freq))
        (some ((s.withTree (createLeaves s.freq)).root.zeroExtend 32))
  | gen : Succeeds s .gen s.generated (some (BitVec.ofNat 32 (maxCodeLen s.generated.codeLen)))
  | enc (sym : Symbol) (room : (s.codeLen.at sym).toNat ≤ s.eoqFree) :
      Succeeds s (.enc sym) { s with eoq := s.eoq ++ s.codeBits sym } (some ((s.codeLen.at sym).zeroExtend 32))
  | dec (k : BitVec 6) (cur : NodeIx) (out : List Symbol) (room : k.toNat ≤ s.soqFree)
      (fed : decFeed s.node s.root s.decCur (s.bitsOperand k) = some (cur, out)) :
      Succeeds s (.dec k) { s with decCur := cur, soq := s.soq ++ out } (some (BitVec.ofNat 32 out.length))
  | dend : Succeeds s .dend s (some 0)
  | drst : Succeeds s .drst { s with decCur := s.root } (some 0)

/-- A body that succeeds leaves what `Succeeds` lists. -/
theorem succeeds_of_bodyOf {i : Instr} {s s' : State} {r : Option Word} (h : bodyOf i s = .ok s' r) : Succeeds s i s' r := by
  cases i with
  | nop => cases h; exact .nop
  | clr => cases h; exact .clr
  | gen => cases (genBody_eq s).symm.trans h; exact .gen
  | drst => cases h; exact .drst
  | count sym =>
    rcases countBody_cases sym s with ⟨_, e⟩ | ⟨room, e⟩ <;> cases e.symm.trans h
    exact .count sym room
  | setf sym =>
    rcases setfBody_cases sym s with ⟨_, e⟩ | ⟨room, e⟩ <;> cases e.symm.trans h
    exact .setf sym room
  | build =>
    rcases buildBody_cases s with ⟨_, e⟩ | ⟨counted, e⟩ <;> cases e.symm.trans h
    exact .build counted
  | enc sym =>
    rcases encBody_cases sym s with ⟨_, e⟩ | ⟨_, _, e⟩ | ⟨_, room, e⟩ <;> cases e.symm.trans h
    exact .enc sym room
  | dec k =>
    rcases decBody_cases k s with ⟨_, e⟩ | ⟨_, _, e⟩ | ⟨room, cur, out, fed, e⟩ <;> cases e.symm.trans h
    exact .dec k cur out room fed
  | dend =>
    rcases dendBody_cases s with ⟨_, e⟩ | ⟨_, e⟩ <;> cases e.symm.trans h
    exact .dend

/-- A completion leaves the record of an error over the old state, or of a success over what the body leaves, in one of the
command's phases. -/
theorem exec_inv {i : Instr} {s t : State} (h : exec i s = .next t) :
    (∃ e, t = s.completeFail e) ∨
    (∃ s' r, allowed i s.phase = true ∧ Succeeds s i s' r ∧ t = s'.completeOk r) := by
  rcases exec_cases h with ⟨e, -, rfl⟩ | ⟨s', r, -, -, hp, hb, rfl⟩
  · exact .inl ⟨e, rfl⟩
  · exact .inr ⟨s', r, hp, succeeds_of_bodyOf hb, rfl⟩

/-! ### The invariant -/

/-- After reset there is no count, no tree, no code and nothing queued (10_state.md R45). -/
theorem inv_reset : Inv State.reset where
  total_eq := freqSum_all_zero.symm
  empty _ := ⟨rfl, rfl, rfl, rfl, rfl⟩
  tree h := absurd rfl h
  uncoded _ sym := SymTable.at_all _ sym
  code_length sym := by
    have hcode : State.reset.code.at sym = [] := SymTable.at_all _ sym
    have hlen : State.reset.codeLen.at sym = 0#8 := SymTable.at_all _ sym
    rw [hcode, hlen]
    rfl
  codes h := nomatch h
  cursor := .inl rfl
  eoq_le := Nat.zero_le _
  soq_le := Nat.zero_le _

/-- CLR leaves every table, the tree and the queues as after reset. -/
theorem inv_cleared (s : State) : Inv s.cleared :=
  inv_reset.congr rfl rfl rfl rfl rfl rfl rfl rfl rfl rfl (Nat.zero_le _) (Nat.zero_le _)

theorem inv_resetCycle (s : State) : Inv s.resetCycle :=
  inv_reset.congr rfl rfl rfl rfl rfl rfl rfl rfl rfl rfl (Nat.zero_le _) (Nat.zero_le _)

/-- A count below the greatest one does not wrap (41_frequency.md R144). -/
theorem toNat_add_one_of_ne_max {x : Word} (hx : x.toNat ≠ 0xFFFFFFFF) : (x + 1).toNat = x.toNat + 1 := by
  have := x.isLt
  rw [BitVec.toNat_add]
  exact Nat.mod_eq_of_lt (show x.toNat + 1 < 2 ^ 32 by omega)

section
variable {s : State} (h : Inv s)
include h

theorem Inv.freq_le_total (sym : Symbol) : (s.freq.at sym).toNat ≤ s.total.toNat :=
  h.total_eq ▸ at_le_freqSum s.freq sym

/-- In COUNTING the counts may change, as long as TOTAL stays their sum: there is no tree and no code to match them. -/
theorem Inv.withCounts (hp : s.phase = .counting) {freq : SymTable Word} {total : Word}
    (hsum : total.toNat = freqSum freq) : Inv { s with freq := freq, total := total } where
  total_eq := hsum
  empty := h.empty
  tree hne := absurd hp hne
  uncoded := h.uncoded
  code_length := h.code_length
  codes hc := nomatch hp.symm.trans hc
  cursor := h.cursor
  eoq_le := h.eoq_le
  soq_le := h.soq_le

/-- COUNT adds one to a count and to TOTAL, and neither wraps (41_frequency.md R140, R144). -/
theorem Inv.count_sum (sym : Symbol) (room : s.total.toNat ≠ 0xFFFFFFFF) :
    (s.total + 1).toNat = freqSum (s.freq.put sym (s.freq.at sym + 1)) := by
  have hput := freqSum_put s.freq sym (s.freq.at sym + 1)
  have hle := h.freq_le_total sym
  have htotal := h.total_eq
  have hlt := s.total.isLt
  have hcount := toNat_add_one_of_ne_max (x := s.freq.at sym) (by omega)
  have htotal' := toNat_add_one_of_ne_max room
  omega

/-- SETF moves TOTAL by the difference of the counts (41_frequency.md R142). -/
theorem Inv.setf_sum (sym : Symbol) (room : s.setfTotal sym ≤ 0xFFFFFFFF) :
    (BitVec.ofNat 32 (s.setfTotal sym)).toNat = freqSum (s.freq.put sym s.argL) := by
  have hput := freqSum_put s.freq sym s.argL
  have hle := h.freq_le_total sym
  have htotal := h.total_eq
  have hset : s.setfTotal sym = s.total.toNat + s.argL.toNat - (s.freq.at sym).toNat := rfl
  rw [BitVec.toNat_ofNat, Nat.mod_eq_of_lt (by omega)]
  omega

/-- BUILD leaves COUNTING with a tree, its cursor at the root and still no code. -/
theorem Inv.withTree (hp : s.phase = .counting) (hpos : 1 ≤ (createLeaves s.freq).length) :
    Inv (s.withTree (createLeaves s.freq)) where
  total_eq := h.total_eq
  empty hc := nomatch hc
  tree _ := treeOk_withTree hpos h.total_eq
  uncoded _ := h.uncoded (by simp [hp])
  code_length := h.code_length
  codes hc := nomatch hc
  cursor := .inl rfl
  eoq_le := h.eoq_le
  soq_le := h.soq_le

/-- GEN keeps the tree and writes codes that match it. -/
theorem Inv.generated (hp : s.phase ≠ .counting) : Inv s.generated :=
  have htree := h.tree hp
  { total_eq := h.total_eq
    empty := fun hc => nomatch hc
    tree := fun _ => htree.congr rfl rfl rfl rfl rfl rfl
    uncoded := fun hc => absurd rfl hc
    code_length := htree.generated_length
    codes := fun _ => htree.codeOk_generated
    cursor := h.cursor
    eoq_le := h.eoq_le
    soq_le := h.soq_le }

/-- ENC appends no more bits than the check of EOQ's room let through. -/
theorem Inv.encoded (sym : Symbol) (room : (s.codeLen.at sym).toNat ≤ s.eoqFree) :
    Inv { s with eoq := s.eoq ++ s.codeBits sym } := by
  refine h.congr rfl rfl rfl rfl rfl rfl rfl rfl rfl rfl ?_ h.soq_le
  have hbits : (s.codeBits sym).length ≤ (s.codeLen.at sym).toNat := List.length_take_le _ _
  have hfree : s.eoqFree = 512 - s.eoq.length := rfl
  have hle := h.eoq_le
  rw [List.length_append]
  omega

/-- Over a tree the cursor may go to any place R42 allows. -/
theorem Inv.withDecoder (hp : s.phase ≠ .counting) {cur : NodeIx} {soq : List Symbol} (hc : CursorOk s cur)
    (hsoq : soq.length ≤ 32) : Inv { s with decCur := cur, soq := soq } where
  total_eq := h.total_eq
  empty he := absurd he hp
  tree _ := (h.tree hp).congr rfl rfl rfl rfl rfl rfl
  uncoded := h.uncoded
  code_length := h.code_length
  codes hcd :=
    have hcodes := h.codes hcd
    ⟨hcodes.coded_iff, hcodes.paths, hcodes.sole, hcodes.bound⟩
  cursor := hc
  eoq_le := h.eoq_le
  soq_le := hsoq

/-- DEC leaves the cursor where R42 allows it, and emits no more symbols than it fed bits, for which SOQ had room. -/
theorem Inv.decoded (hp : s.phase ≠ .counting) {k : BitVec 6} {cur : NodeIx} {out : List Symbol}
    (room : k.toNat ≤ s.soqFree) (fed : decFeed s.node s.root s.decCur (s.bitsOperand k) = some (cur, out)) :
    Inv { s with decCur := cur, soq := s.soq ++ out } := by
  obtain ⟨hcur, hout⟩ := (h.tree hp).decFeed_cursor h.cursor fed
  refine h.withDecoder hp hcur ?_
  have hbits : (s.bitsOperand k).length = k.toNat := by simp [State.bitsOperand]
  have hfree : s.soqFree = 32 - s.soq.length := rfl
  have hle := h.soq_le
  rw [List.length_append]
  omega

/-- A successful body, run in one of its phases, keeps the invariant. -/
theorem Inv.of_succeeds {i : Instr} {s' : State} {r : Option Word} (hp : allowed i s.phase = true)
    (hs : Succeeds s i s' r) : Inv s' := by
  have counting : (s.phase == .counting) = true → s.phase = .counting := by simp
  have tree : (s.phase == .built || s.phase == .coded) = true → s.phase ≠ .counting := by
    cases s.phase <;> simp
  cases hs with
  | nop | dend => exact h
  | clr => exact inv_cleared s
  | count sym room => exact h.withCounts (counting hp) (h.count_sum sym room)
  | setf sym room => exact h.withCounts (counting hp) (h.setf_sum sym room)
  | build counted => exact h.withTree (counting hp) counted
  | gen => exact h.generated (tree hp)
  | enc sym room => exact h.encoded sym room
  | dec k cur out room fed => exact h.decoded (tree hp) room fed
  | drst => exact h.withDecoder (tree hp) (.inl rfl) h.soq_le

theorem Inv.of_exec {i : Instr} {t : State} (ht : exec i s = .next t) : Inv t := by
  rcases exec_inv ht with ⟨e, rfl⟩ | ⟨s', r, hp, hs, rfl⟩
  · exact h.completeFail e
  · exact (h.of_succeeds hp hs).completeOk r

theorem Inv.of_engineTurn {t : State} (ht : engineTurn s = .next t) : Inv t := by
  rcases engineTurn_cases s with ⟨-, e⟩ | ⟨-, -, e⟩ | ⟨-, i, -, e⟩
  · cases e.symm.trans ht
    exact h
  · cases e.symm.trans ht
    exact h.completeFail _
  · exact h.of_exec ((exec_eq i s).trans (e.symm.trans ht))

/-- One step keeps the invariant, whatever event it takes. -/
theorem Inv.of_step {t : State} (ht : step s = .next t) : Inv t := by
  cases hs : s.schedule with
  | nil => exact (h.taken []).of_engineTurn ((step_nil hs).symm.trans ht)
  | cons e rest =>
    cases e with
    | host x =>
      cases (step_host hs).symm.trans ht
      exact (h.taken rest).transact x
    | engine => exact (h.taken rest).of_engineTurn ((step_engine hs).symm.trans ht)
    | rst a =>
      cases (step_rst hs).symm.trans ht
      exact inv_resetCycle _

end

/-- Settles O60: the step's event is a transaction, an engine's turn or a reset cycle, and a turn is one command. -/
theorem everyStepKeepsTheInvariant : Obligations.EveryStepKeepsTheInvariant := fun _ _ h ht => h.of_step ht

/-- Settles O59: in COUNTING the tree and the codes ask nothing, and empty tables sum to 0. -/
theorem resetMeetsTheInvariant : Obligations.ResetMeetsTheInvariant := inv_reset

/-- Settles O28: one count is at most the sum of all, which is TOTAL. -/
theorem countsAreAtMostTotal : Obligations.CountsAreAtMostTotal := fun _ sym h => h.freq_le_total sym

/-- Settles O35: two codes are the paths of two leaves, and a path that goes on from a leaf is empty. -/
theorem codesArePrefixFree : Obligations.CodesArePrefixFree := by
  intro s a b h hcoded h2 ha hb hne hprefix
  have hpaths := (h.codes hcoded).paths h2
  exact hne (leafOnPath_prefix (hpaths a ha) (hpaths b hb) hprefix).2

/-- Settles O58: outside CODED every length is 0 (10_state.md R27), so no bit of a code is shown. -/
theorem codeWindowsReadZeroOutsideCoded : Obligations.CodeWindowsReadZeroOutsideCoded := by
  intro s sym w h hp
  have hlen := h.uncoded hp sym
  constructor
  · simp [State.readWord, State.codeWord, hlen, bitsLE]
  · simp [State.readWord, hlen]

/-! ### Writers -/

section
variable {i : Instr} {s s' : State} {r : Option Word} (h : Succeeds s i s' r)
include h

theorem Succeeds.counts_eq (hi : ∀ sym, i ≠ .count sym ∧ i ≠ .setf sym) (hclr : i ≠ .clr) :
    s'.freq = s.freq ∧ s'.total = s.total := by
  cases h with
  | clr => exact absurd rfl hclr
  | count sym => exact absurd rfl (hi sym).1
  | setf sym => exact absurd rfl (hi sym).2
  | _ => exact ⟨rfl, rfl⟩

theorem Succeeds.tree_eq (hbuild : i ≠ .build) (hclr : i ≠ .clr) :
    s'.node = s.node ∧ s'.nnode = s.nnode ∧ s'.nleaf = s.nleaf ∧ s'.root = s.root := by
  cases h with
  | clr => exact absurd rfl hclr
  | build => exact absurd rfl hbuild
  | _ => exact ⟨rfl, rfl, rfl, rfl⟩

theorem Succeeds.codes_eq (hgen : i ≠ .gen) (hclr : i ≠ .clr) : s'.code = s.code ∧ s'.codeLen = s.codeLen := by
  cases h with
  | clr => exact absurd rfl hclr
  | gen => exact absurd rfl hgen
  | _ => exact ⟨rfl, rfl⟩

theorem Succeeds.decCur_eq (hbuild : i ≠ .build) (hdec : ∀ k, i ≠ .dec k) (hdrst : i ≠ .drst) (hclr : i ≠ .clr) :
    s'.decCur = s.decCur := by
  cases h with
  | clr => exact absurd rfl hclr
  | build => exact absurd rfl hbuild
  | dec k => exact absurd rfl (hdec k)
  | drst => exact absurd rfl hdrst
  | _ => rfl

theorem Succeeds.eoq_eq (henc : ∀ sym, i ≠ .enc sym) (hclr : i ≠ .clr) : s'.eoq = s.eoq := by
  cases h with
  | clr => exact absurd rfl hclr
  | enc sym => exact absurd rfl (henc sym)
  | _ => rfl

theorem Succeeds.soq_eq (hdec : ∀ k, i ≠ .dec k) (hclr : i ≠ .clr) : s'.soq = s.soq := by
  cases h with
  | clr => exact absurd rfl hclr
  | dec k => exact absurd rfl (hdec k)
  | _ => rfl

theorem Succeeds.phase_eq (hbuild : i ≠ .build) (hgen : i ≠ .gen) (hclr : i ≠ .clr) : s'.phase = s.phase := by
  cases h with
  | clr => exact absurd rfl hclr
  | build => exact absurd rfl hbuild
  | gen => exact absurd rfl hgen
  | _ => rfl

/-- NOP answers nothing, so RESULT stays (46_control.md R210). -/
theorem Succeeds.result_of_nop (hi : i = .nop) : r.getD s'.result = s.result := by
  subst hi
  cases h
  rfl

/-- No body touches ARG, ERR, the latches or the model's own fields. -/
theorem Succeeds.frame : s'.arg = s.arg ∧ s'.err = s.err ∧ s'.cmdL = s.cmdL ∧ s'.argL = s.argL ∧
    s'.schedule = s.schedule ∧ s'.resp = s.resp := by
  cases h <;> exact ⟨rfl, rfl, rfl, rfl, rfl, rfl⟩

end

/-- Recording an error sets the bit of its code and keeps the others (10_state.md R36). -/
theorem setErrBit_getLsbD (err : BitVec 9) (e : CmdError) {c : Nat} (hc : c < 9) :
    (setErrBit err e.code).getLsbD c = (err.getLsbD c || decide (c + 1 = e.code)) := by
  have hcode : 1 ≤ e.code := by cases e <;> decide
  have hbit : decide (e.code - 1 = c) = decide (c + 1 = e.code) := decide_eq_decide.2 (by omega)
  rw [setErrBit, BitVec.getLsbD_or, BitVec.getLsbD_ofNat, Nat.testBit_two_pow, hbit, decide_eq_true hc, Bool.true_and]

/-- Settles O23: a failure keeps all but the error record; a success keeps what its body does not write. -/
theorem eachTableHasItsOwnWriters : Obligations.EachTableHasItsOwnWriters := by
  intro i s t ht
  rcases exec_inv ht with ⟨e, rfl⟩ | ⟨s', r, -, hs, rfl⟩
  · refine ⟨fun _ _ => ⟨rfl, rfl⟩, fun _ _ => ⟨rfl, rfl, rfl, rfl⟩, fun _ _ => ⟨rfl, rfl⟩, fun _ _ _ _ => rfl,
      fun _ _ => rfl, fun _ _ => rfl, fun _ _ _ => rfl, fun _ => rfl, fun hok => (nomatch hok), ?_, rfl, rfl, rfl, rfl,
      rfl, rfl⟩
    intro e' he' c hc
    cases he'
    exact setErrBit_getLsbD s.err e hc
  · obtain ⟨harg, herr, hcmdL, hargL, hschedule, hresp⟩ := hs.frame
    refine ⟨hs.counts_eq, hs.tree_eq, hs.codes_eq, hs.decCur_eq, hs.eoq_eq, hs.soq_eq, hs.phase_eq, ?_, fun _ => herr,
      fun _ he => (nomatch he), harg, hcmdL, hargL, hschedule, hresp, rfl⟩
    rintro (hfail | hnop)
    · exact absurd rfl hfail
    · exact hs.result_of_nop hnop

/-- Settles O22: BUILD and GEN run only in their phases (40_command_model.md R125), and no other body but CLR's writes
PHASE. -/
theorem phaseTransitions : Obligations.PhaseTransitions := by
  intro i s t ht
  rcases exec_inv ht with ⟨e, rfl⟩ | ⟨s', r, hp, hs, rfl⟩
  · exact ⟨fun hok => (nomatch hok), fun _ => rfl⟩
  · refine ⟨fun _ => ⟨?_, ?_, ?_, hs.phase_eq⟩, fun hfail => absurd rfl hfail⟩
    · rintro rfl
      cases hs
      exact ⟨by simpa [allowed] using hp, rfl⟩
    · rintro rfl
      cases hs
      exact ⟨by simpa [allowed] using hp, rfl⟩
    · rintro rfl
      cases hs
      rfl

/-! ### The latches while idle -/

/-- Every step answers a next state. -/
theorem step_next (s : State) : ∃ t, step s = .next t := by
  have turn : ∀ u, ∃ t, engineTurn u = .next t := fun u => by
    obtain ⟨t, ht, -⟩ := engineTurn_next u
    exact ⟨t, ht⟩
  cases hs : s.schedule with
  | nil => exact step_nil hs ▸ turn _
  | cons e rest =>
    cases e with
    | host x => exact ⟨_, step_host hs⟩
    | engine => exact step_engine hs ▸ turn _
    | rst a => exact ⟨_, step_rst hs⟩

/-- A state with other latches. -/
def State.withLatches (s : State) (c a : Word) : State := { s with cmdL := c, argL := a }

theorem sameToHost_withLatches {s : State} (hb : s.busy = false) (c a : Word) : SameToHost s (s.withLatches c a) :=
  ⟨rfl, fun h => absurd h (by simp [hb])⟩

/-- States the host cannot tell apart stay so under the same answer of the bus. -/
theorem SameToHost.respond {s t : State} (h : SameToHost s t) (r : Option Response) :
    SameToHost (s.respond r) (t.respond r) :=
  ⟨congrArg (fun u => u.respond r) h.1, h.2⟩

/-- States equal but for the latches are one state with other latches. -/
theorem eq_withLatches_of_unlatched {s s' : State} (h : s.unlatched = s'.unlatched) :
    s' = s.withLatches s'.cmdL s'.argL := by
  cases s
  cases s'
  simp only [State.unlatched, State.mk.injEq] at h
  simp only [State.withLatches, State.mk.injEq]
  simp [h]

/-- While a command is in flight, two states the host cannot tell apart are one. -/
theorem SameToHost.eq_of_busy {s s' : State} (h : SameToHost s s') (hb : s.busy = true) : s' = s := by
  obtain ⟨hcmdL, hargL⟩ := h.2 hb
  rw [eq_withLatches_of_unlatched h.1, ← hcmdL, ← hargL]
  rfl

/-- A read's value does not depend on the latches (10_state.md R33). -/
theorem readWord_withLatches (s : State) (c a : Word) (t : Target) : (s.withLatches c a).readWord t = s.readWord t := by
  cases t <;> rfl

/-- What a read pops does not depend on the latches. -/
theorem afterRead_withLatches (s : State) (c a : Word) (t : Target) :
    (s.withLatches c a).afterRead t = (s.afterRead t).withLatches c a := by
  cases t <;> rfl

theorem afterRead_busy (s : State) (t : Target) : (s.afterRead t).busy = s.busy := by
  cases t <;> rfl

/-- While idle a write to CMD sets both latches anew, and every other write leaves them and does not look at them. -/
theorem sameToHost_afterWrite {s : State} (hb : s.busy = false) (c a : Word) (t : Target) (v : Word) :
    SameToHost (s.afterWrite t v) ((s.withLatches c a).afterWrite t v) := by
  have hb' : (s.withLatches c a).busy = false := hb
  cases t with
  | cmd =>
    simp only [State.afterWrite, State.issue, hb, hb']
    exact ⟨rfl, fun _ => ⟨rfl, rfl⟩⟩
  | arg => exact sameToHost_withLatches (s := s.afterWrite .arg v) hb c a
  | err => exact sameToHost_withLatches (s := s.afterWrite .err v) hb c a
  | _ => exact sameToHost_withLatches hb c a

/-- While idle no transaction shows the latches. -/
theorem sameToHost_transact {s : State} (hb : s.busy = false) (c a : Word) (x : Txn) :
    SameToHost (transact x s) (transact x (s.withLatches c a)) ∧
      (transact x s).resp = (transact x (s.withLatches c a)).resp := by
  have illegal := sameToHost_withLatches (s := s.recordHostError .access) hb c a
  cases x with
  | read addr n =>
    simp only [transact, memRead]
    cases accessTarget addr n with
    | none => exact ⟨illegal.respond _, rfl⟩
    | some t =>
      simp only [readWord_withLatches, afterRead_withLatches]
      exact ⟨(sameToHost_withLatches ((afterRead_busy s t).trans hb) c a).respond _, rfl⟩
  | write addr n v =>
    simp only [transact, memWrite]
    cases accessTarget addr n with
    | none => exact ⟨illegal.respond _, rfl⟩
    | some t => exact ⟨(sameToHost_afterWrite hb c a t v).respond _, rfl⟩

/-- While idle a turn of the engine changes nothing, whatever the latches hold. -/
theorem engineTurn_idle {s : State} (hb : s.busy = false) : engineTurn s = .next s := by
  simp [engineTurn, hb]

/-- Settles O17: while a command is in flight the two states are one; while idle, the step's event decides. -/
theorem latchesAreUnobservableWhileIdle : Obligations.LatchesAreUnobservableWhileIdle := by
  intro s s' h
  cases hb : s.busy with
  | true =>
    obtain ⟨t, ht⟩ := step_next s
    exact ⟨t, t, ht, by rw [h.eq_of_busy hb, ht], ⟨rfl, fun _ => ⟨rfl, rfl⟩⟩, rfl⟩
  | false =>
    rw [eq_withLatches_of_unlatched h.1]
    generalize s'.cmdL = c
    generalize s'.argL = a
    have hidle : ∀ rest, SameToHost (s.taken rest) ((s.withLatches c a).taken rest) := fun rest =>
      sameToHost_withLatches (s := s.taken rest) hb c a
    cases hs : s.schedule with
    | nil =>
      exact ⟨_, _, (step_nil hs).trans (engineTurn_idle hb),
        (step_nil (s := s.withLatches c a) hs).trans (engineTurn_idle hb), hidle [], rfl⟩
    | cons e rest =>
      cases e with
      | host x => exact ⟨_, _, step_host hs, step_host hs, sameToHost_transact (s := s.taken rest) hb c a x⟩
      | engine =>
        exact ⟨_, _, (step_engine hs).trans (engineTurn_idle hb),
          (step_engine (s := s.withLatches c a) hs).trans (engineTurn_idle hb), hidle rest, rfl⟩
      | rst x => exact ⟨_, _, step_rst hs, step_rst hs, ⟨rfl, fun hbusy => (nomatch hbusy)⟩, rfl⟩

/-! ### What the host reads -/

/-- Settles O1: the tables are constant, and the other values are the record's own. -/
theorem resetStateHoldsTheGivenValues : Obligations.ResetStateHoldsTheGivenValues :=
  ⟨SymTable.at_all _, rfl, rfl, rfl, rfl, rfl, rfl, SymTable.at_all _, SymTable.at_all _, rfl, rfl, rfl, rfl, rfl, rfl,
    rfl, rfl, rfl, rfl, rfl, rfl, rfl, rfl, rfl⟩

/-! #### STATUS -/

/-- A bit of a word, from the word as a number. -/
theorem getLsbD_of_toNat {w : Word} {i : Nat} {b : Bool} (h : w.toNat / 2 ^ i % 2 = b.toNat) : w.getLsbD i = b := by
  rw [BitVec.getLsbD, Nat.testBit_eq_decide_div_mod_eq, h]
  cases b <;> rfl

/-- A field of a word, from the word as a number. -/
theorem extractLsb'_of_toNat {w : Word} {i n : Nat} {x : BitVec n} (h : w.toNat / 2 ^ i % 2 ^ n = x.toNat) :
    w.extractLsb' i n = x :=
  BitVec.eq_of_toNat_eq (by rw [BitVec.extractLsb'_toNat, Nat.shiftRight_eq_div_pow, h])

/-- STATUS as a number (10_state.md R35). -/
theorem statusWord_toNat (s : State) : s.statusWord.toNat = s.busy.toNat + 2 * s.phase.bits.toNat +
    8 * s.decAtRoot.toNat + 16 * (lastErrBits s.lastErr).toNat + 256 * s.singleton.toNat := by
  unfold State.statusWord
  refine (toNat_append_eq 0#23 _).trans ?_
  simp only [toNat_append_eq, BitVec.toNat_ofBool, BitVec.toNat_zero]
  omega

/-- The six fields of STATUS (10_state.md R35). -/
theorem statusWord_fields (s : State) :
    s.statusWord.getLsbD 0 = s.busy ∧ s.statusWord.extractLsb' 1 2 = s.phase.bits ∧
    s.statusWord.getLsbD 3 = s.decAtRoot ∧ s.statusWord.extractLsb' 4 4 = lastErrBits s.lastErr ∧
    s.statusWord.getLsbD 8 = s.singleton ∧ s.statusWord.extractLsb' 9 23 = 0#23 := by
  have hword := statusWord_toNat s
  have hbusy := Bool.toNat_lt s.busy
  have hphase := s.phase.bits.isLt
  have hroot := Bool.toNat_lt s.decAtRoot
  have hlast := (lastErrBits s.lastErr).isLt
  have hsingle := Bool.toNat_lt s.singleton
  have hhigh : s.statusWord.toNat / 2 ^ 9 % 2 ^ 23 = (0#23).toNat := by
    rw [BitVec.toNat_zero]
    omega
  exact ⟨getLsbD_of_toNat (by omega), extractLsb'_of_toNat (by omega), getLsbD_of_toNat (by omega),
    extractLsb'_of_toNat (by omega), getLsbD_of_toNat (by omega), extractLsb'_of_toNat hhigh⟩

theorem lastErrBits_some (e : CmdError) : (lastErrBits (some e)).toNat = e.code := by cases e <;> rfl

theorem decAtRoot_eq (s : State) : s.decAtRoot = decide (s.decCur = s.root) := by
  rw [Bool.eq_iff_iff]
  simp [State.decAtRoot]

theorem singleton_eq (s : State) : s.singleton = decide (s.phase ≠ .counting ∧ s.nleaf = 1#9) := by
  rw [Bool.eq_iff_iff]
  simp [State.singleton]

/-- Settles O50: each field is a digit of STATUS as a number. -/
theorem statusFields : Obligations.StatusFields := by
  intro s
  obtain ⟨hbusy, hphase, hroot, hlast, hsingle, hhigh⟩ := statusWord_fields s
  have phase : ∀ p, s.phase = p → s.statusWord.extractLsb' 1 2 = p.bits := fun p hp => hp ▸ hphase
  refine ⟨rfl, hbusy, phase .counting, phase .built, phase .coded, hroot.trans (decAtRoot_eq s), ?_, ?_,
    hsingle.trans (singleton_eq s), hhigh⟩
  · intro hok
    rw [hlast, hok]
    rfl
  · intro e he
    rw [hlast, he]
    exact lastErrBits_some e

/-! #### The node window -/

theorem nodeWord0_of_le {s : State} {i : NodeIx} (hi : s.nnode ≤ i) : s.nodeWord0 i = 0#32 :=
  if_neg (BitVec.not_lt.2 hi)

theorem nodeWord1_of_le {s : State} {i : NodeIx} (hi : s.nnode ≤ i) : s.nodeWord1 i = 0#32 :=
  if_neg (BitVec.not_lt.2 hi)

theorem nodeWord0_leaf {s : State} {i : NodeIx} {sym : Symbol} {f : Word} (hi : i < s.nnode)
    (hn : s.node[i.toNat]? = some (.leaf sym f)) : (s.nodeWord0 i).toNat = 2 ^ 31 + 2 ^ 30 + sym.toNat := by
  simp only [State.nodeWord0, if_pos hi, hn]
  refine (toNat_append_eq 1#1 _).trans ?_
  simp only [toNat_append_eq, BitVec.toNat_ofNat]
  omega

theorem nodeWord0_internal {s : State} {i l r : NodeIx} {f : Word} (hi : i < s.nnode)
    (hn : s.node[i.toNat]? = some (.internal f l r)) :
    (s.nodeWord0 i).toNat = 2 ^ 31 + 2 ^ 17 * l.toNat + 2 ^ 8 * r.toNat := by
  simp only [State.nodeWord0, if_pos hi, hn]
  refine (toNat_append_eq 1#1 _).trans ?_
  simp only [toNat_append_eq, BitVec.toNat_ofNat]
  omega

theorem nodeWord1_node {s : State} {i : NodeIx} {n : Node} (hi : i < s.nnode) (hn : s.node[i.toNat]? = some n) :
    s.nodeWord1 i = n.freq := by
  simp only [State.nodeWord1, if_pos hi, hn]

/-- Settles O56: the two addresses of index i name the two words of node i. -/
theorem nodeWindowWords : Obligations.NodeWindowWords := by
  intro s i a rest
  refine ⟨fun hs ha => ?_, fun hs ha => ?_, fun v hs ha => ?_⟩
  · exact ⟨s.nodeWord0 i, step_read hs (accessTarget_nodeWin0 ha), nodeWord0_of_le,
      fun hi _ _ hn => nodeWord0_leaf hi hn, fun hi _ _ _ hn => nodeWord0_internal hi hn⟩
  · exact ⟨s.nodeWord1 i, step_read hs (accessTarget_nodeWin1 ha), nodeWord1_of_le,
      fun hi _ _ hn => nodeWord1_node hi hn, fun hi _ _ _ hn => nodeWord1_node hi hn⟩
  · rcases ha with ha | ha
    · exact step_write hs (accessTarget_nodeWin0 ha)
    · exact step_write hs (accessTarget_nodeWin1 ha)

/-! #### The code and count windows -/

/-- Bit k of word w of a symbol's code is bit 32w + k of its code, 0 past the code's end (10_state.md R38). -/
theorem codeWord_getLsbD (s : State) (sym : Symbol) (w : BitVec 3) {k : Nat} (hk : k < 32) :
    (s.codeWord sym w).getLsbD k = ((s.codeBits sym)[32 * w.toNat + k]?).getD false := by
  have hword : s.codeWord sym w = BitVec.ofNat 32 (bitsLE (((s.codeBits sym).drop (32 * w.toNat)).take 32)) := rfl
  rw [hword, BitVec.getLsbD_ofNat, bitsLE_testBit, List.getElem?_take, if_pos hk, List.getElem?_drop, decide_eq_true hk,
    Bool.true_and]

theorem codeBits_getElem?_getD (s : State) (sym : Symbol) (j : Nat) : ((s.codeBits sym)[j]?).getD false =
    if j < (s.codeLen.at sym).toNat then ((s.code.at sym)[j]?).getD false else false := by
  rw [State.codeBits, List.getElem?_take]
  split <;> rfl

/-- Settles O57: each address names its symbol's word, and a read there pops nothing. -/
theorem codeAndCountWindowWords : Obligations.CodeAndCountWindowWords := by
  intro s sym a rest hs
  refine ⟨fun w ha _ => ⟨s.codeWord sym w, step_read hs (accessTarget_codeWin ha), fun k hk => ?_⟩,
    fun ha => step_read hs (accessTarget_codeLenWin ha), fun ha => step_read hs (accessTarget_freqWin ha)⟩
  rw [codeWord_getLsbD s sym w hk, codeBits_getElem?_getD]

end Sys2Proof.Machine
end

section
/-! The host's side of HUFF (20_memory.md): which address names what, what a transaction changes and answers, and the run of
ISSUE (30_encoding.md R110). -/

namespace Sys2Proof.Machine

/-! ### The address map (20_memory.md R71 to R73) -/

/-- A number below the size of the address space (20_memory.md R70) is its own address. -/
theorem toNat_ofNat_addr {k : Nat} (h : k < 2 ^ 14) : (BitVec.ofNat 14 k).toNat = k := by
  rw [BitVec.toNat_ofNat, Nat.mod_eq_of_lt h]

/-- The offset of a register or window word names it. -/
theorem accessTarget_offset (t : Target) : accessTarget t.offset 4 = some t := by
  cases t with
  | freqWin sym => exact accessTarget_freqWin (toNat_ofNat_addr (by omega))
  | codeLenWin sym => exact accessTarget_codeLenWin (toNat_ofNat_addr (by omega))
  | nodeWin0 i => exact accessTarget_nodeWin0 (toNat_ofNat_addr (by omega))
  | nodeWin1 i => exact accessTarget_nodeWin1 (toNat_ofNat_addr (by omega))
  | codeWin sym w => exact accessTarget_codeWin (toNat_ofNat_addr (by omega))
  | _ => rfl

theorem offset_of_registerAt {k : Nat} {t : Target} (h : registerAt k = some t) : t.offset.toNat = k := by
  unfold registerAt at h
  split at h <;> cases h <;> rfl

/-- A word-aligned address that is mapped is the offset of what it names. -/
theorem offset_of_wordTarget {k : Nat} {t : Target} (hk : k < 2 ^ 14) (h4 : k % 4 = 0) (h : wordTarget k = some t) :
    t.offset.toNat = k := by
  unfold wordTarget at h
  split at h
  next => exact offset_of_registerAt h
  split at h
  next => cases h; simp [Target.offset]; omega
  split at h
  next => cases h; simp [Target.offset]; omega
  split at h
  next => cases h
  split at h
  next =>
    dsimp only at h
    split at h <;> cases h <;> simp [Target.offset] <;> omega
  next => cases h; simp [Target.offset]; omega

/-- A legal access is one of 4 bytes to the offset of the word it names. -/
theorem accessTarget_eq_some_iff {a : Addr} {n : Nat} {t : Target} :
    accessTarget a n = some t ↔ n = 4 ∧ a = t.offset := by
  constructor
  · intro h
    unfold accessTarget at h
    split at h
    next hlegal => exact ⟨hlegal.1, BitVec.eq_of_toNat_eq (offset_of_wordTarget a.isLt hlegal.2 h).symm⟩
    next => cases h
  · rintro ⟨rfl, rfl⟩
    exact accessTarget_offset t

/-- A word-aligned address outside the two holes is the offset of a register or window word. -/
theorem exists_offset_of_mapped {a : Addr} (h4 : a.toNat % 4 = 0)
    (hmapped : a.toNat < 0x040 ∨ (0x400 ≤ a.toNat ∧ a.toNat < 0xC00) ∨ 0x1000 ≤ a.toNat) :
    ∃ t : Target, a = t.offset := by
  have hlegal : accessTarget a 4 ≠ none := by
    rw [Ne, accessTarget_eq_none_iff]
    omega
  obtain ⟨t, ht⟩ := Option.ne_none_iff_exists'.1 hlegal
  exact ⟨t, (accessTarget_eq_some_iff.1 ht).2⟩

/-- Settles O46: the offset names its word, and every mapped address is the offset of what it names. -/
theorem everyTargetHasItsOwnAddress : Obligations.EveryTargetHasItsOwnAddress :=
  ⟨accessTarget_offset, fun _ _ _ => accessTarget_eq_some_iff.1⟩

/-! ### Reads and writes that change nothing of the block -/

/-- A read of anything but the two queues pops nothing (20_memory.md R74). -/
theorem afterRead_eq_self {t : Target} (heoq : t ≠ .eoqData) (hsoq : t ≠ .soqData) (s : State) : s.afterRead t = s := by
  cases t with
  | eoqData => exact absurd rfl heoq
  | soqData => exact absurd rfl hsoq
  | _ => rfl

/-- A write to anything but CMD, ARG and ERR is ignored (20_memory.md R77). -/
theorem afterWrite_eq_self {t : Target} (hcmd : t ≠ .cmd) (harg : t ≠ .arg) (herr : t ≠ .err) (s : State) (v : Word) :
    s.afterWrite t v = s := by
  cases t with
  | cmd => exact absurd rfl hcmd
  | arg => exact absurd rfl harg
  | err => exact absurd rfl herr
  | _ => rfl

/-- A read of a word that pops nothing leaves the block and answers that word. -/
theorem step_read_offset {s : State} {t : Target} {rest : List Event} (hs : s.schedule = readReg t :: rest)
    (heoq : t ≠ .eoqData) (hsoq : t ≠ .soqData) :
    step s = .next { s with schedule := rest, resp := some (.read (s.readWord t) false) } := by
  rw [step_read hs (accessTarget_offset t), afterRead_eq_self heoq hsoq]
  rfl

/-- A read's value depends neither on the schedule nor on the bus answer. -/
theorem readWord_withOutside (s : State) (evs : List Event) (r : Option Response) (t : Target) :
    (s.withOutside evs r).readWord t = s.readWord t := by
  cases t <;> rfl

/-- States that differ only in the latches and the model's own fields answer every read alike. -/
theorem readWord_eq_of_unlatched {s s' : State}
    (h : s'.unlatched = { s.unlatched with schedule := s'.schedule, resp := s'.resp }) (t : Target) :
    s'.readWord t = s.readWord t := by
  have hout : (s.withOutside s'.schedule s'.resp).unlatched = s'.unlatched := h.symm
  rw [eq_withLatches_of_unlatched hout, readWord_withLatches, readWord_withOutside]

/-- The registers a read of which pops nothing, in the order of the map (20_memory.md R71). -/
def plainRegisters : List Target :=
  [.id, .cmd, .arg, .status, .err, .result, .total, .nleaf, .nnode, .root, .decCur, .eoqCount, .soqCount, .params]

/-- Settles O48: the list is that of the fourteen registers' offsets and words. -/
theorem registerReads : Obligations.RegisterReads := by
  intro s a v rest hs hmem
  have hmap : (a, v) ∈ plainRegisters.map (fun t => (t.offset, s.readWord t)) := hmem
  obtain ⟨t, ht, he⟩ := List.mem_map.1 hmap
  cases he
  exact step_read_offset hs (ne_of_mem_of_not_mem ht (by decide)) (ne_of_mem_of_not_mem ht (by decide))

/-- Settles O49: the address is the offset of one word, whose value no latch and no event shows in. -/
theorem otherReadsAreIdempotent : Obligations.OtherReadsAreIdempotent := by
  intro s a rest hs h4 hmapped heoq hsoq
  obtain ⟨t, rfl⟩ := exists_offset_of_mapped h4 hmapped
  have heoq : t ≠ .eoqData := fun h => heoq (h ▸ rfl)
  have hsoq : t ≠ .soqData := fun h => hsoq (h ▸ rfl)
  refine ⟨s.readWord t, step_read_offset hs heoq hsoq, fun s' rest' hsame hs' => ?_⟩
  rw [← readWord_eq_of_unlatched hsame t]
  exact step_read_offset hs' heoq hsoq

/-- Settles O53: the address is the offset of one word, and that word ignores a write. -/
theorem writesToReadOnlyAddressesAreIgnored : Obligations.WritesToReadOnlyAddressesAreIgnored := by
  intro s a v rest hs h4 hmapped hcmd harg herr
  obtain ⟨t, rfl⟩ := exists_offset_of_mapped h4 hmapped
  have hcmd : t ≠ .cmd := fun h => hcmd (h ▸ rfl)
  have harg : t ≠ .arg := fun h => harg (h ▸ rfl)
  have herr : t ≠ .err := fun h => herr (h ▸ rfl)
  rw [step_write hs (accessTarget_offset t), afterWrite_eq_self hcmd harg herr]
  rfl

/-! ### Illegal accesses, and the writes and reads with an effect -/

/-- Settles O47: the condition is the one under which an access names nothing. -/
theorem illegalAccessOnlySetsErrNine : Obligations.IllegalAccessOnlySetsErrNine := by
  intro s a n v rest hillegal
  have hnone : accessTarget a n = none := (accessTarget_eq_none_iff a n).2 hillegal
  exact ⟨fun hs => step_read_illegal hs hnone, fun hs => step_write_illegal hs hnone⟩

/-- Settles O52: the write's target is ARG, and it does not look at BUSY. -/
theorem argWriteSetsArg : Obligations.ArgWriteSetsArg := by
  intro s v rest hs
  exact step_write hs (accessTarget_offset .arg)

/-- Bit 0 of the ERR word reads 0, and bit c + 1 is the sticky bit of code c + 1 (10_state.md R36). -/
theorem errWord_getLsbD (err : BitVec 9) (c : Nat) :
    (errWord err).getLsbD c = (decide (1 ≤ c) && err.getLsbD (c - 1)) := by
  have hword : (errWord err).getLsbD c = if c < 10 then (err ++ 0#1).getLsbD c else (0#22).getLsbD (c - 10) :=
    BitVec.getLsbD_append
  rw [hword, BitVec.getLsbD_append]
  cases c with
  | zero => rfl
  | succ c =>
    have hlt : err.getLsbD c = true → c + 1 < 10 := fun h => Nat.succ_lt_succ (BitVec.lt_of_getLsbD h)
    simpa using hlt

/-- A write to ERR clears the sticky bit of code c + 1 where bit c + 1 of the value is 1 (20_memory.md R81). -/
theorem clearErrBits_getLsbD (err : BitVec 9) (v : Word) (c : Nat) :
    (clearErrBits err v).getLsbD c = (err.getLsbD c && !v.getLsbD (c + 1)) := by
  have hlt : err.getLsbD c = true → c < 9 := BitVec.lt_of_getLsbD
  cases hbit : err.getLsbD c with
  | false => simp [clearErrBits, hbit]
  | true => simp [clearErrBits, hbit, hlt hbit, Nat.add_comm]

/-- Settles O51: bit 0 of the ERR word is 0, and bit c + 1 is the sticky bit the write keeps or clears. -/
theorem errWriteClearsTheOnes : Obligations.ErrWriteClearsTheOnes := by
  intro s v rest hs
  refine ⟨_, step_write hs (accessTarget_offset .err), rfl, fun c _ => ?_⟩
  have hread : (s.readWord .err).getLsbD c = (decide (1 ≤ c) && s.err.getLsbD (c - 1)) := errWord_getLsbD s.err c
  have hcleared := errWord_getLsbD (clearErrBits s.err v) c
  refine ⟨?_, ?_, ?_⟩
  · refine hcleared.trans ?_
    rw [hread, clearErrBits_getLsbD]
    cases c <;> simp
  · intro hc
    rw [hread, Bool.and_eq_false_iff, decide_eq_false_iff_not]
    exact hc.imp (by omega) fun hge => BitVec.getLsbD_of_ge _ _ (by omega)
  · intro h1 _
    rw [hread, decide_eq_true h1, Bool.true_and]

/-! ### The queues (20_memory.md R79, R80) -/

/-- The bits a read of EOQ_DATA pops are the oldest sixteen, or all if there are fewer. -/
theorem take_eoqPopCount (s : State) : s.eoq.take s.eoqPopCount = s.eoq.take 16 := List.take_eq_take_min.symm

/-- The word a read of EOQ_DATA returns, as a number: the popped bits below 2^16, and their count above. -/
theorem eoqPopWord_toNat (s : State) :
    s.eoqPopWord.toNat = bitsLE (s.eoq.take 16) + 2 ^ 16 * s.eoqPopCount ∧ bitsLE (s.eoq.take 16) < 2 ^ 16 := by
  have hbits : bitsLE (s.eoq.take 16) < 2 ^ 16 :=
    (bitsLE_lt _).trans_le (Nat.pow_le_pow_right (by decide) (List.length_take_le 16 _))
  have hcount : s.eoqPopCount ≤ 16 := Nat.min_le_left _ _
  have hshift : s.eoqPopCount <<< 16 = 2 ^ 16 * s.eoqPopCount := by rw [Nat.shiftLeft_eq, Nat.mul_comm]
  refine ⟨?_, hbits⟩
  rw [State.eoqPopWord, take_eoqPopCount, BitVec.toNat_or, BitVec.toNat_ofNat, BitVec.toNat_ofNat,
    Nat.mod_eq_of_lt (by omega), Nat.mod_eq_of_lt (by omega), Nat.or_comm, ← Nat.shiftLeft_add_eq_or_of_lt hbits, hshift,
    Nat.add_comm]

/-- Bit j < 16 of that word is the j-th oldest bit, 0 past the queue's end. -/
theorem eoqPopWord_getLsbD (s : State) {j : Nat} (hj : j < 16) : s.eoqPopWord.getLsbD j = (s.eoq[j]?).getD false := by
  obtain ⟨hword, hbits⟩ := eoqPopWord_toNat s
  rw [BitVec.getLsbD, hword, Nat.add_comm, Nat.testBit_two_pow_mul_add _ hbits, if_pos hj, bitsLE_testBit,
    List.getElem?_take, if_pos hj]

/-- Settles O54: the popped bits, their count and the zeros are digits of the word as a number. -/
theorem eoqReadPopsUpToSixteenBits : Obligations.EoqReadPopsUpToSixteenBits := by
  intro s rest hs
  obtain ⟨hword, hbits⟩ := eoqPopWord_toNat s
  have hcount : s.eoqPopCount ≤ 16 := Nat.min_le_left _ _
  have hfield : s.eoqPopWord.extractLsb' 16 5 = BitVec.ofNat 5 s.eoqPopCount :=
    extractLsb'_of_toNat (by rw [BitVec.toNat_ofNat]; omega)
  have hzero : s.eoqPopWord.extractLsb' 21 11 = 0#11 :=
    extractLsb'_of_toNat (by rw [BitVec.toNat_zero]; omega)
  refine ⟨s.eoqPopWord, step_read hs (accessTarget_offset .eoqData), fun j hj => eoqPopWord_getLsbD s hj, ?_, hzero⟩
  rw [hfield, BitVec.toNat_ofNat]
  exact Nat.mod_eq_of_lt (by omega)

theorem soqPopWord_nil {s : State} (h : s.soq = []) : s.soqPopWord = 0 := by rw [State.soqPopWord, h]

/-- With a symbol queued, a read of SOQ_DATA returns the oldest with VALID = 1 at bit 8. -/
theorem soqPopWord_cons {s : State} {sym : Symbol} {more : List Symbol} (h : s.soq = sym :: more) :
    s.soqPopWord = BitVec.ofNat 32 (0x100 + sym.toNat) := by
  apply BitVec.eq_of_toNat_eq
  rw [State.soqPopWord, h]
  refine (toNat_append_eq 0#23 _).trans ?_
  simp only [toNat_append_eq, BitVec.toNat_ofNat]
  omega

/-- Settles O55: the read pops the head of the queue, and an empty one stays empty. -/
theorem soqReadPopsOneSymbol : Obligations.SoqReadPopsOneSymbol := by
  intro s rest hs
  have hstep : step s = .next { s with
      schedule := rest, resp := some (.read s.soqPopWord false), soq := s.soq.drop 1 } :=
    step_read hs (accessTarget_offset .soqData)
  constructor
  · intro hempty
    have hpop : s.soq.drop 1 = s.soq := by rw [hempty]; rfl
    rw [hstep, soqPopWord_nil hempty, hpop]
  · intro sym more hsoq
    rw [hstep, soqPopWord_cons hsoq, hsoq]
    rfl

/-! ### The command in flight (20_memory.md R85, R89) -/

/-- While a command is in flight a write to CMD is dropped, and no other write reaches the latches or BUSY. -/
theorem afterWrite_keeps_inFlight {s : State} (hb : s.busy = true) (t : Target) (v : Word) :
    (s.afterWrite t v).cmdL = s.cmdL ∧ (s.afterWrite t v).argL = s.argL ∧ (s.afterWrite t v).busy = true := by
  cases t with
  | cmd =>
    rw [State.afterWrite, State.issue, if_pos hb]
    exact ⟨rfl, rfl, hb⟩
  | _ => exact ⟨rfl, rfl, hb⟩

/-- No read reaches the latches. -/
theorem afterRead_latches (s : State) (t : Target) :
    (s.afterRead t).cmdL = s.cmdL ∧ (s.afterRead t).argL = s.argL := by
  cases t <;> exact ⟨rfl, rfl⟩

/-- Settles O15: an illegal access touches ERR only, a read pops at most a queue, and a write to CMD is dropped. -/
theorem hostCannotAlterTheCommandInFlight : Obligations.HostCannotAlterTheCommandInFlight := by
  intro s x rest hs hb
  refine ⟨_, step_host hs, ?_⟩
  cases x with
  | read a n =>
    simp only [transact, memRead]
    cases accessTarget a n with
    | none => exact ⟨rfl, rfl, hb⟩
    | some t =>
      obtain ⟨hcmdL, hargL⟩ := afterRead_latches (s.taken rest) t
      exact ⟨hcmdL, hargL, (afterRead_busy _ t).trans hb⟩
  | write a n v =>
    simp only [transact, memWrite]
    cases accessTarget a n with
    | none => exact ⟨rfl, rfl, hb⟩
    | some t => exact afterWrite_keeps_inFlight (s := s.taken rest) hb t v

/-! ### The run of ISSUE (30_encoding.md R110) -/

/-- The opcode field of a word of opcode `opc`. -/
theorem opcOf_of_toNat {w : Word} {opc : BitVec 8} {x : Nat} (h : w.toNat = opc.toNat * 2 ^ 24 + x) (hx : x < 2 ^ 24) :
    opcOf w = opc :=
  BitVec.eq_of_toNat_eq (by rw [opcOf_toNat]; omega)

/-- The fields of a word of format S (30_encoding.md R102). -/
theorem encodeS_fields (opc : BitVec 8) (sym : Symbol) :
    opcOf (encodeS opc sym) = opc ∧ symOf (encodeS opc sym) = sym ∧ reservedOkS (encodeS opc sym) = true := by
  have hword := encodeS_toNat opc sym
  refine ⟨opcOf_of_toNat hword (by omega), BitVec.eq_of_toNat_eq ?_, (reservedOkS_iff _).2 (by omega)⟩
  rw [symOf_toNat]
  omega

/-- The fields of a word of format K (30_encoding.md R103). -/
theorem encodeK_fields (opc : BitVec 8) (k : BitVec 6) :
    opcOf (encodeK opc k) = opc ∧ kOf (encodeK opc k) = k ∧ reservedOkK (encodeK opc k) = true := by
  have hword := encodeK_toNat opc k
  refine ⟨opcOf_of_toNat hword (by omega), BitVec.eq_of_toNat_eq ?_, (reservedOkK_iff _).2 (by omega)⟩
  rw [kOf_toNat]
  omega

/-- Decoding the word of a well-formed command gives it back (30_encoding.md R107). -/
theorem decode_encode {i : Instr} (hw : i.wellFormed = true) : decode (encode i) = some i := by
  cases i with
  | count sym =>
    obtain ⟨hopc, hsym, hres⟩ := encodeS_fields 0x02#8 sym
    simp [decode, encode, hopc, hsym, hres]
  | setf sym =>
    obtain ⟨hopc, hsym, hres⟩ := encodeS_fields 0x03#8 sym
    simp [decode, encode, hopc, hsym, hres]
  | enc sym =>
    obtain ⟨hopc, hsym, hres⟩ := encodeS_fields 0x06#8 sym
    simp [decode, encode, hopc, hsym, hres]
  | dec k =>
    have hk : legalK k = true := hw
    obtain ⟨hopc, hkOf, hres⟩ := encodeK_fields 0x07#8 k
    simp [decode, encode, hopc, hkOf, hres, hk]
  | _ => rfl

/-- Reads of STATUS with events after them leave nothing but those events to come. -/
theorem run_polls (early n : Nat) {s : State} {evs : List Event}
    (hs : s.schedule = List.replicate early (readReg .status) ++ evs) :
    ∃ r, Host.Core.run Sys2Proof.core (early + n) s = Host.Core.run Sys2Proof.core n (s.withOutside evs r) := by
  induction early generalizing s with
  | zero => exact ⟨s.resp, by rw [Nat.zero_add, ← show s.schedule = evs from hs]; rfl⟩
  | succ early ih =>
    have hs' : s.schedule = readReg .status :: (List.replicate early (readReg .status) ++ evs) := hs
    rw [Nat.add_right_comm, run_succ _ (step_read_offset hs' (by decide) (by decide))]
    exact ih rfl

/-- The state in which the engine finds the command of `ISSUE i`, but for the model's own fields. -/
def State.issued (s : State) (i : Instr) (rest : List Event) : State :=
  { s with schedule := rest, resp := none, cmdL := encode i, argL := s.arg, busy := true }

/-- The state the command of `ISSUE i` leaves. -/
def State.afterIssued (s : State) (i : Instr) (rest : List Event) : State :=
  (s.issued i rest).recordOutcome (outcomeOf i (s.issued i rest))

/-- The write of ISSUE is accepted while nothing is in flight (40_command_model.md R121). -/
theorem step_issue {s : State} {i : Instr} {evs : List Event} (hb : s.busy = false)
    (hs : s.schedule = writeReg .cmd (encode i) :: evs) (rest : List Event) :
    step s = .next ((s.issued i rest).withOutside evs (some (.write false))) := by
  have haccept : (s.taken evs).afterWrite .cmd (encode i) = (s.taken evs).accept (encode i) := by
    rw [State.afterWrite, State.issue, State.taken_busy, hb]
    rfl
  rw [step_write hs (accessTarget_offset .cmd), haccept]
  rfl

/-- With a command in flight the engine's turn completes it (40_command_model.md R124). -/
theorem engineTurn_inFlight {s : State} {i : Instr} (hb : s.busy = true) (hd : decode s.cmdL = some i) :
    engineTurn s = exec i s := by
  simp only [engineTurn, hb, if_true, hd]

/-- The engine's turn completes the command of ISSUE alike whatever the events to come and the last bus answer. -/
theorem step_complete_issued {i : Instr} (hw : i.wellFormed = true) (s : State) (rest evs : List Event)
    (r : Option Response) : step ((s.issued i rest).withOutside (.engine :: evs) r) =
      .next ((s.afterIssued i rest).withOutside evs none) := by
  have hturn : engineTurn ((s.issued i rest).withOutside evs none) = exec i ((s.issued i rest).withOutside evs none) :=
    engineTurn_inFlight rfl (decode_encode hw)
  rw [State.afterIssued, ← recordOutcome_outside, ← exec_eq, ← hturn]
  exact step_engine rfl

/-- A read of STATUS before the events of a state answers its STATUS and changes nothing else. -/
theorem step_poll {t : State} {rest : List Event} (h : t.schedule = rest) (r : Option Response) :
    step (t.withOutside (readReg .status :: rest) r) = .next { t with resp := some (.read t.statusWord false) } := by
  subst h
  rw [step_read_offset rfl (by decide) (by decide), readWord_withOutside]
  rfl

/-- Settles O14: the reads of STATUS leave the command in flight as it was accepted, and its completion does not look at the
events to come. -/
theorem issueAndPollIsLatencyIndependent : Obligations.IssueAndPollIsLatencyIndependent := by
  intro s i early rest hw hb hs
  obtain ⟨hbusy, hschedule⟩ : (s.afterIssued i rest).busy = false ∧ (s.afterIssued i rest).schedule = rest :=
    recordOutcome_keeps i (s.issued i rest)
  refine ⟨s.afterIssued i rest, exec_eq i (s.issued i rest), ?_, (statusWord_fields _).1.trans hbusy⟩
  obtain ⟨r, hpolls⟩ := run_polls early 2 (evs := .engine :: readReg .status :: rest)
    (s := (s.issued i rest).withOutside (pollEvents early ++ rest) (some (.write false)))
    (List.append_assoc _ _ _)
  calc Host.Core.run Sys2Proof.core (early + 3) s
    _ = Host.Core.run Sys2Proof.core (early + 2) _ := run_succ _ (step_issue hb hs rest)
    _ = Host.Core.run Sys2Proof.core 2 _ := hpolls
    _ = Host.Core.run Sys2Proof.core 1 _ := run_succ 1 (step_complete_issued hw s rest _ r)
    _ = _ := run_succ 0 (step_poll hschedule none)

end Sys2Proof.Machine
end

section
/-! SUPPORT. Decoding and encoding: the words that decode, the words that are illegal, and the rows of the opcode map
(30_encoding.md R101 to R107). -/

namespace Sys2Proof.Machine

/-! ### A word is made of the fields of its format -/

/-- A word of format N is the word of its opcode (30_encoding.md R101). -/
theorem encodeN_of_fields {w : Word} {opc : BitVec 8} (hopc : (opcOf w).toNat = opc.toNat)
    (hres : reservedOkN w = true) : encodeN opc = w := by
  apply BitVec.eq_of_toNat_eq
  rw [reservedOkN_iff] at hres
  rw [encodeN_toNat, ← hopc, opcOf_toNat]
  omega

/-- A word of format S is the word of its opcode and its SYM field (30_encoding.md R102). -/
theorem encodeS_of_fields {w : Word} {opc : BitVec 8} (hopc : (opcOf w).toNat = opc.toNat)
    (hres : reservedOkS w = true) : encodeS opc (symOf w) = w := by
  apply BitVec.eq_of_toNat_eq
  rw [reservedOkS_iff] at hres
  rw [encodeS_toNat, ← hopc, opcOf_toNat, symOf_toNat]
  omega

/-- A word of format K is the word of its opcode and its K field (30_encoding.md R103). -/
theorem encodeK_of_fields {w : Word} {opc : BitVec 8} (hopc : (opcOf w).toNat = opc.toNat)
    (hres : reservedOkK w = true) : encodeK opc (kOf w) = w := by
  apply BitVec.eq_of_toNat_eq
  rw [reservedOkK_iff] at hres
  rw [encodeK_toNat, ← hopc, opcOf_toNat, kOf_toNat]
  omega

/-! ### Decode and encode are inverse -/

/-- Settles O4: every field of the encoded word is the command's own. -/
theorem decodeOfEncodeIsTheCommand : Obligations.DecodeOfEncodeIsTheCommand := fun _ hw => decode_encode hw

/-- What an arm of `decode` asks and answers. -/
theorem decode_arm_eq_some {p : Prop} [Decidable p] {i j : Instr} (h : (if p then some j else none) = some i) : p ∧ i = j := by
  obtain ⟨hp, hij⟩ := Option.ite_none_right_eq_some.1 h
  exact ⟨hp, (Option.some.inj hij).symm⟩

/-- Settles O5: each opcode's arm of the decoder checks the reserved bits of its format, so the word is made of the fields
the decoder read; DEC's arm checks K too. -/
theorem decodedWordIsItsEncoding : Obligations.DecodedWordIsItsEncoding := by
  intro w i h
  unfold decode at h
  split at h
  case h_3 hopc | h_4 hopc | h_7 hopc =>
    obtain ⟨hres, rfl⟩ := decode_arm_eq_some h
    exact ⟨rfl, encodeS_of_fields hopc hres⟩
  case h_8 hopc =>
    obtain ⟨hres, rfl⟩ := decode_arm_eq_some h
    obtain ⟨hres, hk⟩ := Bool.and_eq_true_iff.1 hres
    exact ⟨hk, encodeK_of_fields hopc hres⟩
  case h_1 hopc | h_2 hopc | h_5 hopc | h_6 hopc | h_9 hopc | h_10 hopc =>
    obtain ⟨hres, rfl⟩ := decode_arm_eq_some h
    exact ⟨rfl, encodeN_of_fields hopc hres⟩
  case h_11 => nomatch h

/-! ### The rows of the opcode map (30_encoding.md R105) -/

theorem matchesWord_iff {r : OpcodeRow} {w : Word} : r.matchesWord w = true ↔ w &&& r.mask = r.pattern := beq_iff_eq

/-- Every mask of the opcode map covers the whole opcode. -/
theorem opcOf_mask {r : OpcodeRow} (hr : r ∈ opcodeMap) : opcOf r.mask = 0xFF#8 := by
  revert r
  decide

/-- A word matches only rows of its own opcode. -/
theorem opcOf_pattern {r : OpcodeRow} (hr : r ∈ opcodeMap) {w : Word} (hw : r.matchesWord w = true) :
    opcOf r.pattern = opcOf w := by
  have hpattern : w &&& r.mask = r.pattern := matchesWord_iff.1 hw
  calc opcOf r.pattern
    _ = opcOf w &&& opcOf r.mask := by rw [← hpattern, opcOf, BitVec.extractLsb'_and]; rfl
    _ = opcOf w := by rw [opcOf_mask hr]; exact BitVec.and_allOnes

/-- A word that matches the one row of its opcode matches that row alone. -/
theorem mnemonics_of_matchesWord {w mask : Word} {opc : BitVec 8} {name : String}
    (hrow : opcodeMap.filter (fun q => opcOf q.pattern == opc) = [⟨name, encodeN opc, mask⟩])
    (hopc : opcOf w = opc) (hmask : w &&& mask = encodeN opc) :
    (opcodeMap.filter (fun q => q.matchesWord w)).map OpcodeRow.mnemonic = [name] := by
  have hboth : ∀ q ∈ opcodeMap, q.matchesWord w = (q.matchesWord w && (opcOf q.pattern == opc)) := by
    intro q hq
    cases hm : q.matchesWord w with
    | false => rfl
    | true => rw [opcOf_pattern hq hm, hopc, beq_self_eq_true, Bool.and_self]
  have hown : OpcodeRow.matchesWord ⟨name, encodeN opc, mask⟩ w = true := matchesWord_iff.2 hmask
  rw [List.filter_congr hboth, ← List.filter_filter, hrow]
  simp [hown]

/-- The mask of format S leaves the opcode of a word. -/
theorem encodeS_and_mask (opc : BitVec 8) (sym : Symbol) : encodeS opc sym &&& 0xFFFFFF00#32 = encodeN opc := by
  have hmask : 0xFFFFFF00#32 = 0xFF#8 ++ (0xFFFF#16 ++ 0#8) := rfl
  have hopc : opc &&& 0xFF#8 = opc := BitVec.and_allOnes
  rw [hmask, encodeS, BitVec.and_append, BitVec.and_append, hopc, BitVec.zero_and, BitVec.and_zero]
  rfl

/-- The mask of format K leaves the opcode of a word. -/
theorem encodeK_and_mask (opc : BitVec 8) (k : BitVec 6) : encodeK opc k &&& 0xFFFFFFC0#32 = encodeN opc := by
  have hmask : 0xFFFFFFC0#32 = 0xFF#8 ++ (0x3FFFF#18 ++ 0#6) := rfl
  have hopc : opc &&& 0xFF#8 = opc := BitVec.and_allOnes
  rw [hmask, encodeK, BitVec.and_append, BitVec.and_append, hopc, BitVec.zero_and, BitVec.and_zero]
  rfl

theorem opcOf_encodeS (opc : BitVec 8) (sym : Symbol) : opcOf (encodeS opc sym) = opc := (encodeS_fields opc sym).1

theorem opcOf_encodeK (opc : BitVec 8) (k : BitVec 6) : opcOf (encodeK opc k) = opc := (encodeK_fields opc k).1

/-- Settles O7: the word is the command's encoding, and each opcode has one row; a word of format N is one constant. -/
theorem decodedWordMatchesOneRow : Obligations.DecodedWordMatchesOneRow := by
  intro w i h
  obtain ⟨-, rfl⟩ := decodedWordIsItsEncoding w i h
  cases i with
  | count sym => exact mnemonics_of_matchesWord rfl (opcOf_encodeS _ sym) (encodeS_and_mask _ sym)
  | setf sym => exact mnemonics_of_matchesWord rfl (opcOf_encodeS _ sym) (encodeS_and_mask _ sym)
  | enc sym => exact mnemonics_of_matchesWord rfl (opcOf_encodeS _ sym) (encodeS_and_mask _ sym)
  | dec k => exact mnemonics_of_matchesWord rfl (opcOf_encodeK _ k) (encodeK_and_mask _ k)
  | _ => rfl

/-! ### Illegal words (30_encoding.md R106) -/

/-- When an arm of `decode` fails. -/
theorem decode_arm_eq_none_iff {p : Prop} [Decidable p] {i : Instr} : (if p then some i else none) = none ↔ ¬p := by
  rw [ite_eq_right_iff]
  simp

/-- With an illegal word in flight the engine's turn fails with ILLEGAL_COMMAND (40_command_model.md R124). -/
theorem step_illegal {s : State} {rest : List Event} (hs : s.schedule = .engine :: rest) (hb : s.busy = true)
    (hd : decode s.cmdL = none) : step s = .next ((s.taken rest).completeFail .illegalCommand) := by
  rw [step_engine hs]
  rcases engineTurn_cases (s.taken rest) with ⟨hidle, _⟩ | ⟨_, _, hturn⟩ | ⟨_, i, hi, _⟩
  · exact absurd (hb.symm.trans hidle) (by decide)
  · exact hturn
  · exact absurd (hd.symm.trans hi) nofun

/-- A write to CMD is accepted while nothing is in flight, whatever its word (40_command_model.md R121). -/
theorem step_write_cmd_idle {s : State} {w : Word} {rest : List Event} (hb : s.busy = false)
    (hs : s.schedule = writeReg .cmd w :: rest) :
    step s = .next (((s.taken rest).accept w).respond (some (.write false))) := by
  have haccept : (s.taken rest).afterWrite .cmd w = (s.taken rest).accept w := by
    rw [State.afterWrite, State.issue, State.taken_busy, hb]
    rfl
  rw [step_write hs (accessTarget_offset .cmd), haccept]

/-- Settles O6: the arm of the word's opcode decides which words are illegal; CMD takes any word, and the engine's turn
fails on an illegal one. -/
theorem illegalWordsFailAtCompletion : Obligations.IllegalWordsFailAtCompletion := by
  constructor
  · intro w
    unfold decode
    rw [opcOf_toNat]
    split
    case h_3 | h_4 | h_7 =>
      rw [decode_arm_eq_none_iff, reservedOkS_iff]
      omega
    case h_8 =>
      rw [decode_arm_eq_none_iff, Bool.and_eq_true, reservedOkK_iff, legalK_iff, kOf_toNat]
      omega
    case h_1 | h_2 | h_5 | h_6 | h_9 | h_10 =>
      rw [decode_arm_eq_none_iff, reservedOkN_iff]
      omega
    case h_11 =>
      simp only [imp_false, true_iff] at *
      omega
  · intro s w rest hb hs hd
    refine ⟨_, step_write_cmd_idle hb hs, rfl, ?_⟩
    have hfail : step (((s.taken (.engine :: rest)).accept w).respond (some (.write false))) = .next _ :=
      step_illegal rfl rfl hd
    have herr : s.err ||| 0b000001000#9 = setErrBit s.err CmdError.illegalCommand.code := rfl
    rw [hfail, herr, State.completeFail]
    simp

/-- Settles O3: fourteen fixed words, decoded. -/
theorem sampleWordsDecode : Obligations.SampleWordsDecode := by
  unfold Obligations.SampleWordsDecode
  decide

end Sys2Proof.Machine
end

section
/-! The life of a command (40_command_model.md): its acceptance, its completion at the engine's turn, the independence of the
completion from ARG, the two outcomes it records, and the end of every run. -/

namespace Sys2Proof.Machine

/-! ### A completion does not read ARG (R122) -/

/-- A state with another ARG. -/
def State.withArg (s : State) (v : Word) : State := { s with arg := v }

/-- An outcome whose next state, if there is one, has another ARG. -/
def ExecResult.withArg (v : Word) (o : ExecResult) : ExecResult :=
  match o with
  | .ok s' r => .ok (s'.withArg v) r
  | .fail e => .fail e

/-- No body reads ARG: its checks and its writes are those of the state with any other ARG. -/
theorem bodyOf_withArg (i : Instr) (s : State) (v : Word) : bodyOf i (s.withArg v) = (bodyOf i s).withArg v := by
  cases i with
  | nop | clr | gen | drst => rfl
  | count | setf | build | enc | dend =>
    simp only [bodyOf, countBody, setfBody, buildBody, encBody, dendBody, apply_ite (ExecResult.withArg v)]
    rfl
  | dec k =>
    simp only [bodyOf, decBody, apply_ite (ExecResult.withArg v)]
    have hfeed : decFeed (s.withArg v).node (s.withArg v).root (s.withArg v).decCur ((s.withArg v).bitsOperand k) =
        decFeed s.node s.root s.decCur (s.bitsOperand k) := rfl
    rw [hfeed]
    cases decFeed s.node s.root s.decCur (s.bitsOperand k) <;> rfl

theorem outcomeOf_withArg (i : Instr) (s : State) (v : Word) : outcomeOf i (s.withArg v) = (outcomeOf i s).withArg v := by
  have hphase : (s.withArg v).phase = s.phase := rfl
  rw [outcomeOf, outcomeOf, bodyOf_withArg, hphase, apply_ite (ExecResult.withArg v), apply_ite (ExecResult.withArg v)]
  rfl

/-- The record of an outcome commutes with a change of ARG. -/
theorem recordOutcome_withArg (s : State) (o : ExecResult) (v : Word) :
    (s.withArg v).recordOutcome (o.withArg v) = (s.recordOutcome o).withArg v := by
  cases o <;> rfl

/-- Settles O16: the outcome is the same but for ARG, and so is its record. -/
theorem argWriteDoesNotAffectTheRunningCommand : Obligations.ArgWriteDoesNotAffectTheRunningCommand := by
  intro i s v
  refine ⟨s.recordOutcome (outcomeOf i s), exec_eq i s, ?_⟩
  calc exec i (s.withArg v)
    _ = .next ((s.withArg v).recordOutcome ((outcomeOf i s).withArg v)) := by rw [exec_eq, outcomeOf_withArg]
    _ = .next ((s.recordOutcome (outcomeOf i s)).withArg v) := by rw [recordOutcome_withArg]

/-! ### The two outcomes (R126, R127) -/

/-- Settles O18: a success leaves LAST_ERR = 0, so the completion is the record of the error alone. -/
theorem failedCommandChangesOnlyTheErrorRecord : Obligations.FailedCommandChangesOnlyTheErrorRecord := by
  intro i s t e ht he
  rcases exec_inv ht with ⟨e', rfl⟩ | ⟨s', r, -, -, rfl⟩
  · cases he
    rfl
  · nomatch he

/-- Settles O19: a failure leaves a code in LAST_ERR, and no body writes ERR or, for NOP, answers a RESULT. -/
theorem successNeverClearsErr : Obligations.SuccessNeverClearsErr := by
  intro i s t ht hok
  rcases exec_inv ht with ⟨e, rfl⟩ | ⟨s', r, -, hs, rfl⟩
  · nomatch hok
  · obtain ⟨-, herr, -⟩ := hs.frame
    exact ⟨herr, hs.result_of_nop⟩

/-! ### The run of the schedule (R123) -/

theorem afterRead_schedule (s : State) (t : Target) : (s.afterRead t).schedule = s.schedule := by
  cases t <;> rfl

theorem issue_schedule (s : State) (v : Word) : (s.issue v).schedule = s.schedule := by
  rw [State.issue]
  split <;> rfl

theorem afterWrite_schedule (s : State) (t : Target) (v : Word) : (s.afterWrite t v).schedule = s.schedule := by
  cases t with
  | cmd => exact issue_schedule s v
  | _ => rfl

/-- No transaction adds or takes an event. -/
theorem transact_schedule (x : Txn) (s : State) : (transact x s).schedule = s.schedule := by
  cases x with
  | read a n =>
    simp only [transact, memRead]
    cases accessTarget a n with
    | none => rfl
    | some t => exact afterRead_schedule s t
  | write a n v =>
    simp only [transact, memWrite]
    cases accessTarget a n with
    | none => rfl
    | some t => exact afterWrite_schedule s t v

/-- A step with events pending takes the first of them. -/
theorem step_takes_event {s : State} {e : Event} {rest : List Event} (hs : s.schedule = e :: rest) :
    ∃ t, step s = .next t ∧ t.schedule = rest := by
  cases e with
  | host x => exact ⟨_, step_host hs, transact_schedule x _⟩
  | engine =>
    obtain ⟨t, ht, -, hschedule⟩ := engineTurn_next (s.taken rest)
    exact ⟨t, (step_engine hs).trans ht, hschedule⟩
  | rst a => exact ⟨_, step_rst hs, rfl⟩

/-- A run of as many steps as there are events and one more ends with the engine's turn and nothing pending. -/
theorem run_schedule {evs : List Event} {s : State} (hs : s.schedule = evs) :
    ∃ t, Host.Core.run Sys2Proof.core (evs.length + 1) s = .next t ∧ t.busy = false ∧ t.schedule = [] := by
  induction evs generalizing s with
  | nil =>
    obtain ⟨t, ht, hidle⟩ := engineTurn_next (s.taken [])
    exact ⟨t, run_succ 0 ((step_nil hs).trans ht), hidle⟩
  | cons e rest ih =>
    obtain ⟨t, ht, hrest⟩ := step_takes_event hs
    rw [List.length_cons, run_succ _ ht]
    exact ih hrest

/-- Settles O13: each step takes one event, and with none left the engine completes what is in flight. -/
theorem runEndsWithNothingInFlight : Obligations.RunEndsWithNothingInFlight := fun _ => run_schedule rfl

/-! ### The engine's turn (R124) -/

/-- Settles O8: either way the step is the engine's turn, and it completes the command in flight. -/
theorem engineTurnRunsTheDecodedCommand : Obligations.EngineTurnRunsTheDecodedCommand := by
  intro s rest i hs hb hd
  have hturn : engineTurn (s.taken rest) = exec i (s.taken rest) := engineTurn_inFlight hb hd
  rcases hs with hs | ⟨hs, rfl⟩
  · exact (step_engine hs).trans hturn
  · exact (step_nil hs).trans hturn

/-- The bits of a command word taken from a number are the number's low 32 bits. -/
theorem tableWord_32 (w : Nat) : tableWord 32 w = BitVec.ofNat 32 w :=
  BitVec.eq_of_toNat_eq (by simp [tableWord])

theorem decodeTableWord_32 (w : Nat) : decodeTableWord 32 w = decode (BitVec.ofNat 32 w) := by
  rw [decodeTableWord, if_pos (Nat.mod_lt _ (by decide)), tableWord_32]

/-- Settles O9: the placed state has the word in flight and the engine's turn first in its schedule. -/
theorem placedWordRunsNext : Obligations.PlacedWordRunsNext := by
  intro s w i hw
  rw [decodeTableWord_32] at hw
  rw [State.withFetchWord, tableWord_32]
  exact engineTurnRunsTheDecodedCommand (s.placed (BitVec.ofNat 32 w)) s.schedule i (.inl rfl) rfl hw

/-! ### Acceptance (R121) -/

/-- A write to CMD is dropped while a command is in flight, and records BUSY (60_exceptions.md R228). -/
theorem step_write_cmd_busy {s : State} {v : Word} {rest : List Event} (hb : s.busy = true)
    (hs : s.schedule = writeReg .cmd v :: rest) :
    step s = .next (((s.taken rest).recordHostError .busy).respond (some (.write false))) := by
  have hdrop : (s.taken rest).afterWrite .cmd v = (s.taken rest).recordHostError .busy := if_pos hb
  rw [step_write hs (accessTarget_offset .cmd), hdrop]

/-- Settles O10: BUSY alone decides whether the word is latched or dropped. -/
theorem cmdWriteIsAcceptedOrDropped : Obligations.CmdWriteIsAcceptedOrDropped :=
  fun _ _ _ hs => ⟨fun hb => step_write_cmd_idle hb hs, fun hb => step_write_cmd_busy hb hs⟩

end Sys2Proof.Machine
end

section
/-! The frequency counter (41_frequency.md): what COUNT and SETF leave in COUNTING on each side of the overflow check. -/

namespace Sys2Proof.Machine

/-- A completion whose checks pass is the record of the body's success (40_command_model.md R126). -/
theorem exec_of_body_ok {i : Instr} {s s' : State} {r : Option Word} (hw : i.wellFormed = true)
    (hp : allowed i s.phase = true) (hb : bodyOf i s = .ok s' r) : exec i s = .next (s'.completeOk r) := by
  rw [exec_eq, outcomeOf_allowed hw hp, hb, recordOutcome_ok]

/-- A completion whose checks pass is the record of the body's failure (40_command_model.md R127). -/
theorem exec_of_body_fail {i : Instr} {s : State} {e : CmdError} (hw : i.wellFormed = true)
    (hp : allowed i s.phase = true) (hb : bodyOf i s = .fail e) : exec i s = .next (s.completeFail e) := by
  rw [exec_eq, outcomeOf_allowed hw hp, hb, recordOutcome_fail]

/-- The new total of R142 is the number that makes TOTAL + ARG_L when FREQ[sym] is added. -/
theorem State.setfTotal_eq {s : State} {sym : Symbol} {total' : Nat}
    (h : total' + (s.freq.at sym).toNat = s.total.toNat + s.argL.toNat) : s.setfTotal sym = total' := by
  rw [State.setfTotal, State.countOperand]
  omega

/-- Settles O27: TOTAL − FREQ[sym] + ARG_L decides the overflow check, and a new total that passes it fits 32 bits. -/
theorem setfReplacesOneCount : Obligations.SetfReplacesOneCount := by
  intro sym s total' hp _ hsum
  have hnew : s.setfTotal sym = total' := State.setfTotal_eq hsum
  have hphase : allowed (.setf sym) s.phase = true := beq_iff_eq.2 hp
  rcases setfBody_cases sym s with ⟨hover, hbody⟩ | ⟨hroom, hbody⟩
  · exact ⟨fun hfits => absurd hfits (by omega), fun _ => exec_of_body_fail rfl hphase hbody⟩
  · refine ⟨fun _ => ⟨_, exec_of_body_ok rfl hphase hbody, SymTable.at_put_same _ _ _,
      fun _ hx => SymTable.at_put_other _ _ hx, ?_, rfl⟩, fun hover => absurd hover (by omega)⟩
    calc (BitVec.ofNat 32 (s.setfTotal sym)).toNat
      _ = s.setfTotal sym % 2 ^ 32 := BitVec.toNat_ofNat _ _
      _ = s.setfTotal sym := Nat.mod_eq_of_lt (Nat.lt_succ_of_le hroom)
      _ = total' := hnew

/-- Settles O26: a full TOTAL is the one check of COUNT, and no entry but FREQ[sym] is written. -/
theorem countAddsOneOccurrence : Obligations.CountAddsOneOccurrence := by
  intro sym s hp
  have hphase : allowed (.count sym) s.phase = true := beq_iff_eq.2 hp
  have hfull : s.total = 0xFFFFFFFF#32 ↔ s.total.toNat = 0xFFFFFFFF := BitVec.toNat_inj.symm
  rcases countBody_cases sym s with ⟨hmax, hbody⟩ | ⟨hroom, hbody⟩
  · exact ⟨fun hne => absurd (hfull.2 hmax) hne, fun _ => exec_of_body_fail rfl hphase hbody⟩
  · exact ⟨fun _ => ⟨_, exec_of_body_ok rfl hphase hbody, SymTable.at_put_same _ _ _,
      fun _ hx => SymTable.at_put_other _ _ hx, rfl⟩, fun hmax => absurd (hfull.1 hmax) hroom⟩

end Sys2Proof.Machine
end

section
/-! The tree builder (42_tree_builder.md): the registers a BUILD in COUNTING leaves, the order of its merges, and its failure
on an empty frequency table. -/

namespace Sys2Proof.Machine

/-- The merge over the leaves of a table with n ≥ 1 counted symbols: the loop's invariant with the root alone left, 2n − 1
nodes, and the root at 2n − 2 (42_tree_builder.md R152, R153). -/
theorem mergeTree_createLeaves {freq : SymTable Word} (hpos : 1 ≤ distinctCount freq) :
    MergeInv (createLeaves freq) (mergeTree (createLeaves freq)).1 [(mergeTree (createLeaves freq)).2] ∧
      (mergeTree (createLeaves freq)).1.length = 2 * distinctCount freq - 1 ∧
      (mergeTree (createLeaves freq)).2 = 2 * distinctCount freq - 2 := by
  rw [← length_createLeaves] at hpos ⊢
  exact mergeTree_spec (childSlots_createLeaves freq) hpos (by rw [length_createLeaves]; exact distinctCount_le freq)

/-- BUILD in COUNTING with a counted symbol succeeds, and its result is the root (42_tree_builder.md R150). -/
theorem exec_build_counted {s : State} (hp : s.phase = .counting) (hpos : 1 ≤ distinctCount s.freq) :
    exec .build s = .next ((s.withTree (createLeaves s.freq)).completeOk
      (some ((s.withTree (createLeaves s.freq)).root.zeroExtend 32))) := by
  rcases buildBody_cases s with ⟨hzero, -⟩ | ⟨-, hbody⟩
  · rw [length_createLeaves] at hzero
    exact absurd hzero (by omega)
  · exact exec_of_body_ok rfl (beq_iff_eq.2 hp) hbody

/-- Settles O29: n leaves merge into 2n − 1 nodes with the root last, and n ≤ 256 makes its index fit the 9 bits of ROOT. -/
theorem buildLeavesTheTreeRegisters : Obligations.BuildLeavesTheTreeRegisters := by
  intro s hp hpos
  obtain ⟨-, hlen, hroot⟩ := mergeTree_createLeaves hpos
  have hle := distinctCount_le s.freq
  refine ⟨_, exec_build_counted hp hpos, hlen, ?_⟩
  have hresult : (BitVec.ofNat 9 (2 * distinctCount s.freq - 2)).zeroExtend 32 = _ :=
    BitVec.setWidth_ofNat_of_le_of_lt (by omega) (by omega)
  rw [State.completeOk, State.withTree_root, hroot, hresult, State.withTree, hroot, length_createLeaves]
  rfl

/-- Settles O31: the merge loop's invariant says of each node what the round that made it did. -/
theorem buildMergesTheTwoLeastKeys : Obligations.BuildMergesTheTwoLeastKeys := by
  intro s hp hpos
  obtain ⟨hinv, hlen, -⟩ := mergeTree_createLeaves hpos
  have hleaves := List.prefix_iff_eq_take.1 hinv.leaves
  have hmerged := hinv.merged
  rw [length_createLeaves] at hleaves hmerged
  exact ⟨_, exec_build_counted hp hpos, hlen, hleaves.symm, fun i hn hi => hmerged i hn (hlen ▸ hi)⟩

/-- Settles O30: no symbol is counted, so there is no leaf, and INVALID_INPUT is recorded. -/
theorem buildOfNoSymbolFails : Obligations.BuildOfNoSymbolFails := by
  intro s hp hzero
  rcases buildBody_cases s with ⟨-, hbody⟩ | ⟨hpos, -⟩
  · exact exec_of_body_fail rfl (beq_iff_eq.2 hp) hbody
  · rw [length_createLeaves] at hpos
    obtain ⟨sym, hne⟩ := (distinctCount_pos_iff s.freq).1 hpos
    exact absurd (hzero sym) hne

end Sys2Proof.Machine
end

section
/-! The code generator (43_code_generator.md): what a GEN over a tree leaves, and that a second GEN finds its own table. -/

namespace Sys2Proof.Machine

/-- GEN may run once there is a tree (40_command_model.md R125). -/
theorem allowed_gen_iff {p : Phase} : allowed .gen p = true ↔ p ≠ .counting := by
  cases p <;> decide

/-- In BUILT and CODED GEN succeeds, and its result is the greatest length of the table it leaves (43_code_generator.md
R170). -/
theorem exec_gen_of_tree {s : State} (hp : s.phase ≠ .counting) :
    exec .gen s = .next (s.generated.completeOk (some (BitVec.ofNat 32 (maxCodeLen s.generated.codeLen)))) :=
  exec_of_body_ok rfl (allowed_gen_iff.2 hp) (genBody_eq s)

/-- The greatest code length fits RESULT. -/
theorem toNat_maxCodeLen (lens : SymTable (BitVec 8)) : (BitVec.ofNat 32 (maxCodeLen lens)).toNat = maxCodeLen lens := by
  obtain ⟨-, -, hle⟩ := maxCodeLen_spec lens
  rw [BitVec.toNat_ofNat, Nat.mod_eq_of_lt (by omega)]

/-- Settles O33: the table GEN writes meets the code invariant, and RESULT is the maximum over its lengths. -/
theorem genDerivesTheCodeTable : Obligations.GenDerivesTheCodeTable := by
  intro s hp h
  have hcodes := h.codeOk_generated
  obtain ⟨hle, hattained, -⟩ := maxCodeLen_spec s.generated.codeLen
  rw [← toNat_maxCodeLen] at hle hattained
  have htwo : s.nleaf ≠ 1#9 → 2 ≤ s.nleaf.toNat := fun hne => by
    have hpos := h.nleaf_pos
    have hne' : s.nleaf.toNat ≠ 1 := fun he => hne (BitVec.eq_of_toNat_eq he)
    omega
  exact ⟨_, exec_gen_of_tree hp, fun _ hs => h.generated_uncounted hs, fun h1 => hcodes.sole (congrArg BitVec.toNat h1),
    fun hne => hcodes.paths (htwo hne), fun sym => ⟨(h.generated_length sym).symm, hle sym⟩, hattained, rfl⟩

/-- GEN reads only the tree, which it leaves: from the state it left, it generates that state's tables. -/
theorem State.generated_completeOk_generated (s : State) (r : Option Word) :
    (s.generated.completeOk r).generated = s.generated.completeOk r := rfl

/-- A second record of the same success changes nothing. -/
theorem State.completeOk_completeOk (s : State) (res : Word) :
    (s.completeOk (some res)).completeOk (some res) = s.completeOk (some res) := rfl

/-- Settles O34: the first GEN left CODED with the tree as it was, so the second writes the same tables and result. -/
theorem genIsIdempotent : Obligations.GenIsIdempotent := by
  intro s t hexec hok
  rcases exec_inv hexec with ⟨e, rfl⟩ | ⟨s', r, -, hs, rfl⟩
  · cases hok
  · cases hs with
    | gen =>
      rw [exec_gen_of_tree Phase.noConfusion, State.generated_completeOk_generated, State.completeOk_codeLen,
        State.completeOk_completeOk]

end Sys2Proof.Machine
end

section
/-! The encoder (44_encoder.md): what ENC appends to EOQ, and the order of its two checks. -/

namespace Sys2Proof.Machine

/-- ENC may run in CODED only (40_command_model.md R125). -/
theorem allowed_enc_iff {sym : Symbol} {p : Phase} : allowed (.enc sym) p = true ↔ p = .coded := beq_iff_eq

/-- The room of a queue within its depth, as a sum: n more bits are free exactly when EOQ with them still fits (10_state.md
R29). -/
theorem State.le_eoqFree_iff {s : State} {n : Nat} (h : s.eoq.length ≤ 512) :
    n ≤ s.eoqFree ↔ s.eoq.length + n ≤ 512 := Nat.le_sub_iff_add_le' h

/-- A code as long as its CODE_LEN is pushed whole (10_state.md R27). -/
theorem State.codeBits_eq_code {s : State} {sym : Symbol} (h : (s.code.at sym).length = (s.codeLen.at sym).toNat) :
    s.codeBits sym = s.code.at sym := by
  rw [State.codeBits, ← h, List.take_length]

/-- Settles O36: neither check of ENC fails, and the bits it pushes are the whole code. -/
theorem encAppendsTheCode : Obligations.EncAppendsTheCode := by
  intro sym s hp hcode hlen hfits
  have hroom := (State.le_eoqFree_iff (Nat.le_of_add_right_le hfits)).2 hfits
  rcases encBody_cases sym s with ⟨hzero, -⟩ | ⟨-, hfull, -⟩ | ⟨-, -, hbody⟩
  · exact absurd hzero hcode
  · exact absurd hroom (Nat.not_le.2 hfull)
  · rw [State.codeBits_eq_code hlen] at hbody
    exact exec_of_body_ok rfl (allowed_enc_iff.2 hp) hbody

/-- Settles O37: the code is looked up first, whatever EOQ holds, and only then the room. -/
theorem encFailsWithoutCodeOrRoom : Obligations.EncFailsWithoutCodeOrRoom := by
  intro sym s hp
  have hphase : allowed (.enc sym) s.phase = true := allowed_enc_iff.2 hp
  rcases encBody_cases sym s with ⟨hzero, hbody⟩ | ⟨hcode, -, hbody⟩ | ⟨hcode, hroom, -⟩
  · exact ⟨fun _ => exec_of_body_fail rfl hphase hbody, fun hcode => absurd hzero hcode⟩
  · exact ⟨fun hzero => absurd hzero hcode, fun _ _ _ => exec_of_body_fail rfl hphase hbody⟩
  · exact ⟨fun hzero => absurd hzero hcode,
      fun _ heoq hover => absurd ((State.le_eoqFree_iff heoq).1 hroom) (Nat.not_le.2 hover)⟩

end Sys2Proof.Machine
end

section
/-! The decoder (45_decoder.md): what one bit step does over the tree, the loop of DEC as bit steps in turn, the two checks
of DEC, and that decoding and encoding are inverse. -/

namespace Sys2Proof.Machine

/-- The decoder's commands run once there is a tree, in the same phases as GEN (40_command_model.md R125). -/
theorem allowed_decoder {p : Phase} (hp : p ≠ .counting) :
    (∀ k, allowed (.dec k) p = true) ∧ allowed .dend p = true ∧ allowed .drst p = true :=
  ⟨fun _ => allowed_gen_iff.2 hp, allowed_gen_iff.2 hp, allowed_gen_iff.2 hp⟩

/-! ### DEND and DRST (R194, R196) -/

/-- Settles O42: the cursor's place is the one check of DEND. -/
theorem dendAcceptsOnlyAtTheRoot : Obligations.DendAcceptsOnlyAtTheRoot := by
  intro s hp
  obtain ⟨-, hphase, -⟩ := allowed_decoder hp
  rcases dendBody_cases s with ⟨hoff, hbody⟩ | ⟨hroot, hbody⟩
  · exact ⟨fun hroot => absurd hroot hoff, fun _ => exec_of_body_fail rfl hphase hbody⟩
  · exact ⟨fun _ => exec_of_body_ok rfl hphase hbody, fun hoff => absurd hroot hoff⟩

/-- Settles O43: DRST has no check but the phase's. -/
theorem drstReturnsTheCursorToTheRoot : Obligations.DrstReturnsTheCursorToTheRoot := by
  intro s hp
  obtain ⟨-, -, hphase⟩ := allowed_decoder hp
  exact exec_of_body_ok rfl hphase rfl

/-! ### One bit step (R191, R192) -/

section
variable {nodes : List Node} {root cur : NodeIx} {b : Bool}

/-- In a singleton tree 0 emits the sole symbol and 1 fails, wherever the cursor stands. -/
theorem decStep_leaf_root {sym : Symbol} {f : Word} (hroot : nodes[root.toNat]? = some (.leaf sym f)) :
    decStep nodes root cur b = if b then (cur, .fail) else (root, .emit sym) := by
  simp only [decStep, hroot]

/-- A branch to a leaf emits its symbol and returns to the root. -/
theorem decStep_leaf_child {f f' g : Word} {l r l' r' : NodeIx} {sym : Symbol}
    (hroot : nodes[root.toNat]? = some (.internal f' l' r')) (hcur : nodes[cur.toNat]? = some (.internal f l r))
    (hchild : nodes[(if b then r else l).toNat]? = some (.leaf sym g)) :
    decStep nodes root cur b = (root, .emit sym) := by
  simp only [decStep, hroot, hcur, hchild]

/-- A branch to an internal node moves the cursor there. -/
theorem decStep_internal_child {f f' g : Word} {l r l' r' l2 r2 : NodeIx}
    (hroot : nodes[root.toNat]? = some (.internal f' l' r')) (hcur : nodes[cur.toNat]? = some (.internal f l r))
    (hchild : nodes[(if b then r else l).toNat]? = some (.internal g l2 r2)) :
    decStep nodes root cur b = (if b then r else l, .none) := by
  simp only [decStep, hroot, hcur, hchild]

end

/-- Settles O38: the root decides between the two kinds of tree, and the child on the branch what the step does. -/
theorem decoderStepFollowsTheTree : Obligations.DecoderStepFollowsTheTree := by
  intro nodes root cur b
  refine ⟨fun sym f hroot => ⟨decStep_leaf_root hroot, decStep_leaf_root hroot⟩, ?_⟩
  intro f l r f' l' r' hroot hcur
  exact ⟨fun sym g hchild => decStep_leaf_child hroot hcur hchild,
    fun g l2 r2 hchild => decStep_internal_child hroot hcur hchild⟩

/-! ### The loop of DEC (R190, R193) -/

section
variable {nodes : List Node} {root cur nxt : NodeIx} {b : Bool}

/-- After a silent step the loop goes on from the new cursor. -/
theorem decFeed_cons_none (h : decStep nodes root cur b = (nxt, .none)) (rest : List Bool) :
    decFeed nodes root cur (b :: rest) = decFeed nodes root nxt rest := by
  rw [decFeed, h]

/-- An emitted symbol stands before those the rest of the batch emits. -/
theorem decFeed_cons_emit {sym : Symbol} (h : decStep nodes root cur b = (nxt, .emit sym)) (rest : List Bool) :
    decFeed nodes root cur (b :: rest) = (decFeed nodes root nxt rest).map (fun q => (q.1, sym :: q.2)) := by
  rw [decFeed, h]
  dsimp only
  cases decFeed nodes root nxt rest <;> rfl

/-- A failing step fails the batch. -/
theorem decFeed_cons_fail (h : decStep nodes root cur b = (nxt, .fail)) (rest : List Bool) :
    decFeed nodes root cur (b :: rest) = none := by
  rw [decFeed, h]

end

/-- Two batches fed in turn, the second from where the first left the cursor, are one batch. -/
theorem decFeed_append (nodes : List Node) (root cur : NodeIx) (xs ys : List Bool) :
    decFeed nodes root cur (xs ++ ys) =
      (decFeed nodes root cur xs).bind fun p => (decFeed nodes root p.1 ys).map fun q => (q.1, p.2 ++ q.2) := by
  induction xs generalizing cur with
  | nil => exact Option.map_id'.symm
  | cons b xs ih =>
    rw [List.cons_append]
    rcases hstep : decStep nodes root cur b with ⟨nxt, ev⟩
    cases ev with
    | none => rw [decFeed_cons_none hstep, decFeed_cons_none hstep, ih]
    | fail => rw [decFeed_cons_fail hstep, decFeed_cons_fail hstep, Option.bind_none]
    | emit sym =>
      rw [decFeed_cons_emit hstep, decFeed_cons_emit hstep, ih, Option.map_bind, Option.bind_map]
      simp only [Function.comp_def, Option.map_map, List.cons_append]

/-- Settles O39: the loop by its first step, and `decFeed_append`. -/
theorem decoderBatchesCompose : Obligations.DecoderBatchesCompose := by
  intro nodes root cur
  refine ⟨rfl, fun b nxt => ⟨fun h => decFeed_cons_none h [], fun sym h => decFeed_cons_emit h [],
    fun h => decFeed_cons_fail h []⟩, fun xs ys => ?_⟩
  rw [decFeed_append]
  cases decFeed nodes root cur xs with
  | none => rfl
  | some p =>
    dsimp only [Option.bind_some]
    cases decFeed nodes root p.1 ys <;> rfl

/-! ### DEC (R190) -/

/-- The room of SOQ within its depth, as a sum (10_state.md R30). -/
theorem State.le_soqFree_iff {s : State} {n : Nat} (h : s.soq.length ≤ 32) :
    n ≤ s.soqFree ↔ s.soq.length + n ≤ 32 := Nat.le_sub_iff_add_le' h

/-- Settles O40: the room is checked first, and then the loop says which outcome it is. -/
theorem decFeedsItsBatch : Obligations.DecFeedsItsBatch := by
  intro k s hpos hle hp hsoq
  have hlegal : (Instr.dec k).wellFormed = true := (legalK_iff k).2 ⟨hpos, hle⟩
  have hphase := (allowed_decoder hp).1 k
  have hroom := State.le_soqFree_iff (n := k.toNat) hsoq
  rcases decBody_cases k s with ⟨hfull, hbody⟩ | ⟨hfree, hfeed, hbody⟩ | ⟨hfree, cur, out, hfeed, hbody⟩
  · exact ⟨fun _ => exec_of_body_fail hlegal hphase hbody, fun hfits => absurd (hroom.2 hfits) (Nat.not_le.2 hfull)⟩
  · exact ⟨fun hover => absurd (hroom.1 hfree) (Nat.not_le.2 hover), fun _ =>
      ⟨fun _ _ hsome => (nomatch hfeed.symm.trans hsome), fun _ => exec_of_body_fail hlegal hphase hbody⟩⟩
  · refine ⟨fun hover => absurd (hroom.1 hfree) (Nat.not_le.2 hover), fun _ =>
      ⟨fun cur' out' hsome => ?_, fun hnone => nomatch hfeed.symm.trans hnone⟩⟩
    cases hfeed.symm.trans hsome
    exact exec_of_body_ok hlegal hphase hbody

/-- The bits of a batch are as many as K says. -/
theorem State.bitsOperand_length (s : State) (k : BitVec 6) : (s.bitsOperand k).length = k.toNat := by
  rw [State.bitsOperand, List.length_map, List.length_range]

/-- A batch is all 0 when the bits of ARG_L below K are. -/
theorem State.bitsOperand_eq_false {s : State} {k : BitVec 6} (h : ∀ j, j < k.toNat → s.argL.getLsbD j = false) :
    ∀ b ∈ s.bitsOperand k, b = false := by
  intro b hb
  obtain ⟨j, hj, rfl⟩ := List.mem_map.1 hb
  exact h j (List.mem_range.1 hj)

/-- Settles O41: a tree fails no batch but one with a 1 over a sole leaf, so DEC takes the outcome of O40 that succeeds. -/
theorem decNeverFailsInATree : Obligations.DecNeverFailsInATree := by
  intro k s h hpos hle hp hroom hbits
  have htree := h.tree hp
  obtain ⟨cur, out, hfeed⟩ := htree.decFeed_isSome h.cursor (hbits.imp_right State.bitsOperand_eq_false)
  obtain ⟨-, hout⟩ := htree.decFeed_cursor h.cursor hfeed
  rw [State.bitsOperand_length] at hout
  obtain ⟨hok, -⟩ := (decFeedsItsBatch k s hpos hle hp h.soq_le).2 hroom
  exact ⟨_, out, hok cur out hfeed, hout, rfl⟩

/-! ### Decoding and encoding (R195, R197, R198) -/

/-- Settles O44, by induction on the message: each code emits its symbol and returns to the root. -/
theorem decodingInvertsEncoding : Obligations.DecodingInvertsEncoding := by
  intro s msg h hcoded hcounted
  have htree := h.tree (by simp [hcoded])
  induction msg with
  | nil => rfl
  | cons sym msg ih =>
    obtain ⟨hsym, hmsg⟩ := List.forall_mem_cons.1 hcounted
    rw [List.flatMap_cons, htree.decFeed_code (h.codes hcoded) hsym, ih hmsg, Option.map_some]

/-- Settles O45: a feed from the root has the empty path before it. -/
theorem decoderConsumesExactlyTheEmittedCodes : Obligations.DecoderConsumesExactlyTheEmittedCodes := by
  intro s bits cur out h hcoded hfeed
  have htree := h.tree (by simp [hcoded])
  exact htree.decFeed_consumes (h.codes hcoded) (pre := []) (.inl rfl) rfl hfeed

end Sys2Proof.Machine
end

section
/-! The control commands (46_control.md): neither has a check to fail, so each is the record of its success. -/

namespace Sys2Proof.Machine

/-- Settles O24: NOP may run in any phase, and its body hands on the state with no result to record. -/
theorem nopOnlyRecordsSuccess : Obligations.NopOnlyRecordsSuccess := by
  intro s
  have hbody : bodyOf .nop s = .ok s none := rfl
  exact exec_of_body_ok rfl rfl hbody

/-- What CLR does not write it keeps, and its success records the 0 that RESULT and LAST_ERR have after reset
(46_control.md R213; 10_state.md R45). -/
theorem State.cleared_completeOk_zero (s : State) : s.cleared.completeOk (some 0) = { State.reset with
    arg := s.arg, err := s.err, cmdL := s.cmdL, argL := s.argL, schedule := s.schedule, resp := s.resp } := rfl

/-- Settles O25: CLR may run in any phase, and the record of its success is the reset state but for what it keeps. -/
theorem clrLeavesTheResetStateButArgAndErr : Obligations.ClrLeavesTheResetStateButArgAndErr := by
  intro s
  have hbody : bodyOf .clr s = .ok s.cleared (some 0) := rfl
  rw [← State.cleared_completeOk_zero]
  exact exec_of_body_ok rfl rfl hbody

end Sys2Proof.Machine
end

section
/-! Exceptions (60_exceptions.md): the codes commands record, the phase check, the idle engine, and that no step stops. -/

namespace Sys2Proof.Machine

/-! ### Command errors (R220, R225) -/

/-- The code of a command error is one of the first seven rows of the table (60_exceptions.md R220). -/
theorem CmdError.code_bounds (e : CmdError) : 1 ≤ e.code ∧ e.code ≤ 7 := by
  cases e <;> decide

/-- Recording a command error sets the bit of its code (10_state.md R36). -/
theorem setErrBit_getLsbD_code (err : BitVec 9) (e : CmdError) : (setErrBit err e.code).getLsbD (e.code - 1) = true := by
  obtain ⟨hpos, hle⟩ := e.code_bounds
  rw [setErrBit_getLsbD err e (by omega), Nat.sub_add_cancel hpos, decide_eq_true rfl, Bool.or_true]

/-- Recording a command error keeps the bits of the host's errors, codes 8 and 9. -/
theorem setErrBit_getLsbD_host (err : BitVec 9) (e : CmdError) {c : Nat} (hc : 7 ≤ c) (hc9 : c < 9) :
    (setErrBit err e.code).getLsbD c = err.getLsbD c := by
  obtain ⟨-, hle⟩ := e.code_bounds
  rw [setErrBit_getLsbD err e hc9, decide_eq_false (by omega), Bool.or_false]

/-- Settles O20: a failure sets the bit of its own code, which is at most 7, and a success does not write ERR. -/
theorem commandErrorsAreCodesOneToSeven : Obligations.CommandErrorsAreCodesOneToSeven := by
  refine ⟨rfl, rfl, rfl, rfl, rfl, rfl, rfl, ?_⟩
  intro i s t ht
  rcases exec_inv ht with ⟨e, rfl⟩ | ⟨s', r, -, hs, rfl⟩
  · have hhost {c : Nat} := setErrBit_getLsbD_host s.err e (c := c)
    refine ⟨hhost (by decide) (by decide), hhost (by decide) (by decide), ?_⟩
    rintro e' ⟨⟩
    obtain ⟨hpos, hle⟩ := e.code_bounds
    exact ⟨hpos, hle, setErrBit_getLsbD_code s.err e⟩
  · obtain ⟨-, herr, -⟩ := hs.frame
    have hkeep (c : Nat) : (s'.completeOk r).err.getLsbD c = s.err.getLsbD c := congrArg (·.getLsbD c) herr
    exact ⟨hkeep 7, hkeep 8, fun _ he => (nomatch he)⟩

/-- A command whose encoding is accepted and whose phase is not records SEQUENCE (40_command_model.md R128). -/
theorem exec_outside_phases {i : Instr} {s : State} (hw : i.wellFormed = true) (hp : allowed i s.phase = false) :
    exec i s = .next (s.completeFail .sequence) := by
  rw [exec_eq, outcomeOf, if_pos hw, hp, if_neg Bool.false_ne_true, recordOutcome_fail]

/-- Settles O21: every command listed for a phase is one that `allowed` refuses in it. -/
theorem outsideItsPhasesACommandFailsWithSequence : Obligations.OutsideItsPhasesACommandFailsWithSequence := by
  intro i s hw hlisted
  have hp : allowed i s.phase = false := by
    rcases hlisted with ⟨hphase, hi⟩ | ⟨hphase, hi⟩ | ⟨hphase, hi⟩ <;> rw [hphase]
    · rcases hi with rfl | ⟨_, rfl⟩ | ⟨_, rfl⟩ | rfl | rfl <;> rfl
    · rcases hi with ⟨_, rfl⟩ | ⟨_, rfl⟩ | rfl | ⟨_, rfl⟩ <;> rfl
    · rcases hi with ⟨_, rfl⟩ | ⟨_, rfl⟩ | rfl <;> rfl
  exact exec_outside_phases hw hp

/-! ### The idle engine and the outcome of a step (R241, R233) -/

/-- At an engine event, and with no event pending, the step is the engine's turn (20_memory.md R85). -/
theorem step_engineTurn {s : State} {rest : List Event} (hs : s.schedule = .engine :: rest ∨ (s.schedule = [] ∧ rest = [])) :
    step s = engineTurn (s.taken rest) := by
  rcases hs with hs | ⟨hs, rfl⟩
  · exact step_engine hs
  · exact step_nil hs

/-- Settles O11: the step is the engine's turn, and with nothing in flight that turn changes nothing. -/
theorem idleEngineChangesNothing : Obligations.IdleEngineChangesNothing :=
  fun s rest hs hb => (step_engineTurn hs).trans (engineTurn_idle (s := s.taken rest) hb)

/-- Settles O12: a transaction and a reset cycle answer a next state, and so does every turn of the engine. -/
theorem everyStepAnswersANextState : Obligations.EveryStepAnswersANextState := step_next

end Sys2Proof.Machine
end

section
/-! Reset (70_reset_and_hazards.md): a reset cycle keeps nothing of the state it meets but the events still to come. -/

namespace Sys2Proof.Machine

/-- A reset cycle forgets the command in flight with every other piece of state (70_reset_and_hazards.md R251); the bus
answer is the reset state's. -/
theorem State.taken_resetCycle (s : State) (rest : List Event) :
    (s.taken rest).resetCycle = { State.reset with schedule := rest } := rfl

/-- Settles O2: a reset event answers the reset cycle, whatever it attempts, and that cycle reads only the schedule. -/
theorem resetCycleRestoresTheResetState : Obligations.ResetCycleRestoresTheResetState :=
  fun s _ rest hs => ⟨_, step_rst hs, congrArg State.unlatched (s.taken_resetCycle rest)⟩

end Sys2Proof.Machine
end
